-- ==== Sys2Proof/Word.lean ====
section
/-! DEFINITION. The one data width of the hardware (spec/00_scope.md R5, WORD = 8 bits; spec/10_state.md R21). -/

namespace Sys2Proof

/-- A memory cell, a register, an opcode or an operand byte: 8 bits, unsigned (R8, R21). -/
abbrev Byte := BitVec 8

/-- An index into the register file, 0 to 7 (R21: "8 unsigned integer slots, index 0–7"). -/
abbrev Reg := Fin 8

end Sys2Proof
end

