-- ==== Sys2Proof/Config.lean ====
section
/-! DEFINITION. What the hardware fixes once and no instruction changes: the kinds of its parameters
(spec/00_scope.md R5), the names of the InstructionTable's entries (spec/30_encoding.md R84) and the one
free value, the timer input (spec/60_exceptions.md R176). The parameters' values stand in Decode.lean
and Machine/Ops.lean. -/

namespace Sys2Proof

/-- The 24 operations of the InstructionTable (R75, R76, R84), in the order of spec/opcode_table.json. -/
inductive Op where
  | hlt | ldi | prn | push | pop | call | ret | st | iret | jmp | pra | jeq | jne | addi
  | add | mul | mod | cmp | and | not | or | xor | shl | shr
  deriving DecidableEq, Repr

/-- The four instruction formats of R71. -/
inductive Format where
  | z    -- opcode
  | r    -- opcode, register index
  | rr   -- opcode, register index, register index
  | ri   -- opcode, register index, immediate
  deriving DecidableEq, Repr

/-- The parameter ALU_OPCODE_MAP (R5, R76): the opcode bytes of the ten ALU instructions. -/
structure AluOpcodeMap where
  add : Byte
  mul : Byte
  mod : Byte
  cmp : Byte
  and : Byte
  not : Byte
  or  : Byte
  xor : Byte
  shl : Byte
  shr : Byte
  deriving DecidableEq, Repr

/-- The parameter SP_BOUNDS_POLICY (R5, R140, R141): what a push at SP = 0 or a pop at SP = 255 does. -/
inductive SpBoundsPolicy where
  | fault  -- `StackPointerOutOfRange`
  | wrap   -- SP is taken modulo 256 and nothing is raised
  deriving DecidableEq, Repr

/-- FREE VALUE (log 13). The timer input `tick` of the n-th sampled dispatch cycle (R6, R176): "the spec
places no constraint on the sequence of `tick` values", so it has no body and nothing can be proved of it. -/
opaque Config.tick : Nat → Bool

end Sys2Proof
end

