-- ==== Sys2Proof/Syntax.lean ====
section
/-! DEFINITION. The instructions, one constructor per row of spec/opcode_table.json and in its order
(spec/30_encoding.md R71, R75, R76). An operand is the byte that stands in the instruction: `a` and `b` name
registers and are legal from 0 to 7 (R73; checked by `Instr.wellFormed` and, when the instruction runs, by
the machine), `imm` is an immediate of any value (R74). -/

namespace Sys2Proof

inductive Instr where
  | hlt
  | ldi (a imm : Byte)
  | prn (a : Byte)
  | push (a : Byte)
  | pop (a : Byte)
  | call (a : Byte)
  | ret
  | st (a b : Byte)
  | iret
  | jmp (a : Byte)
  | pra (a : Byte)
  | jeq (a : Byte)
  | jne (a : Byte)
  | addi (a imm : Byte)
  | add (a b : Byte)
  | mul (a b : Byte)
  | mod (a b : Byte)
  | cmp (a b : Byte)
  | and (a b : Byte)
  | not (a : Byte)
  | or (a b : Byte)
  | xor (a b : Byte)
  | shl (a b : Byte)
  | shr (a b : Byte)
  deriving DecidableEq, Repr

end Sys2Proof
end

