-- ==== Sys2Proof/WellFormed.lean ====
section
/-! DEFINITION. Which instructions are well formed: every register operand byte is an index of the register
file (spec/30_encoding.md R73, R79). Immediates are free (R74). -/

namespace Sys2Proof

/-- The register operand bytes of an instruction, operand `a` first (R71, R73). -/
def Instr.regOperands : Instr → List Byte
  | .hlt | .ret | .iret => []
  | .ldi a _ | .addi a _ => [a]
  | .prn a | .push a | .pop a | .call a | .jmp a | .pra a | .jeq a | .jne a | .not a => [a]
  | .st a b | .add a b | .mul a b | .mod a b | .cmp a b => [a, b]
  | .and a b | .or a b | .xor a b | .shl a b | .shr a b => [a, b]

/-- A byte that names a register: 0 to 7 (R73). -/
def isRegByte (b : Byte) : Bool :=
  decide (b.toNat < 8)

/-- Every register operand names a register (R73). -/
def Instr.wellFormed (i : Instr) : Bool :=
  i.regOperands.all isRegByte

end Sys2Proof
end

