-- ==== Sys2Proof/Decode.lean ====
section
/-! DEFINITION. The InstructionTable, the decoder and the encoder (spec/30_encoding.md R70 to R80, R84).
Decoding compares the whole opcode byte with the table (R72); the ten ALU opcodes are an argument (R76). -/

namespace Sys2Proof

/-- The default of ALU_OPCODE_MAP (R76). PRESUMED (log 1): the numbers are not in the spec's source. -/
def defaultAluOpcodeMap : AluOpcodeMap where
  add := 0xA0#8
  mul := 0xA2#8
  mod := 0xA4#8
  cmp := 0xA7#8
  and := 0xA8#8
  not := 0x69#8
  or  := 0xAA#8
  xor := 0xAB#8
  shl := 0xAC#8
  shr := 0xAD#8

/-- The opcode byte of an operation: the 14 of R75 and the ten of the map (R76). -/
def Op.opcode (m : AluOpcodeMap) : Op → Byte
  | .hlt  => 0x01#8
  | .ldi  => 0x82#8
  | .prn  => 0x47#8
  | .push => 0x45#8
  | .pop  => 0x46#8
  | .call => 0x50#8
  | .ret  => 0x11#8
  | .st   => 0x84#8
  | .iret => 0x13#8
  | .jmp  => 0x54#8
  | .pra  => 0x48#8
  | .jeq  => 0x55#8
  | .jne  => 0x56#8
  | .addi => 0x88#8
  | .add  => m.add
  | .mul  => m.mul
  | .mod  => m.mod
  | .cmp  => m.cmp
  | .and  => m.and
  | .not  => m.not
  | .or   => m.or
  | .xor  => m.xor
  | .shl  => m.shl
  | .shr  => m.shr

/-- The format of an operation (R71). -/
def Op.format : Op → Format
  | .hlt | .ret | .iret => .z
  | .prn | .pra | .push | .pop | .call | .jmp | .jeq | .jne | .not => .r
  | .st | .add | .mul | .cmp | .and | .or | .xor | .shl | .shr | .mod => .rr
  | .ldi | .addi => .ri

/-- How many operand bytes follow the opcode byte (R70, R71). -/
def Format.operandCount : Format → Nat
  | .z => 0
  | .r => 1
  | .rr | .ri => 2

/-- The operand count of the InstructionTable's descriptor (R84). -/
def Op.operandCount (o : Op) : Nat :=
  o.format.operandCount

/-- `width(op)`, the instruction's length in bytes (R9, R70). -/
def Op.width (o : Op) : Nat :=
  1 + o.operandCount

/-- "whether it is an ALU op" (R84): the ten of R76. -/
def Op.isAlu : Op → Bool
  | .add | .mul | .mod | .cmp | .and | .not | .or | .xor | .shl | .shr => true
  | .hlt | .ldi | .prn | .push | .pop | .call | .ret | .st | .iret | .jmp | .pra | .jeq | .jne | .addi => false

/-- "whether it sets ProgramCounter itself" (R84). -/
def Op.setsPc : Op → Bool
  | .call | .ret | .jmp | .jeq | .jne | .iret => true
  | .hlt | .ldi | .prn | .push | .pop | .st | .pra | .addi => false
  | .add | .mul | .mod | .cmp | .and | .not | .or | .xor | .shl | .shr => false

/-- Every operation, in the order of spec/opcode_table.json. -/
def Op.all : List Op :=
  [.hlt, .ldi, .prn, .push, .pop, .call, .ret, .st, .iret, .jmp, .pra, .jeq, .jne, .addi] ++
  [.add, .mul, .mod, .cmp, .and, .not, .or, .xor, .shl, .shr]

/-- What R76 asks of a map: the ten values are distinct from each other and from the 14 of R75. -/
abbrev AluOpcodeMap.Legal (m : AluOpcodeMap) : Prop :=
  (Op.all.map (Op.opcode m)).Nodup

/-- The table lookup, by whole-byte equality (R72, R97). -/
def lookupOp (m : AluOpcodeMap) (opcode : Byte) : Option Op :=
  Op.all.find? fun o => Op.opcode m o == opcode

/-- Why a byte sequence is no instruction. -/
inductive DecodeReject where
  | noByte                              -- there is no opcode byte
  | unrecognizedOpcode (opcode : Byte)  -- the byte is not in the table (R78)
  | operandMissing (op : Op)            -- the bytes end before the last operand (R98)
  deriving DecidableEq, Repr

/-- The operation of an instruction. -/
def Instr.op : Instr → Op
  | .hlt => .hlt
  | .ldi _ _ => .ldi
  | .prn _ => .prn
  | .push _ => .push
  | .pop _ => .pop
  | .call _ => .call
  | .ret => .ret
  | .st _ _ => .st
  | .iret => .iret
  | .jmp _ => .jmp
  | .pra _ => .pra
  | .jeq _ => .jeq
  | .jne _ => .jne
  | .addi _ _ => .addi
  | .add _ _ => .add
  | .mul _ _ => .mul
  | .mod _ _ => .mod
  | .cmp _ _ => .cmp
  | .and _ _ => .and
  | .not _ => .not
  | .or _ _ => .or
  | .xor _ _ => .xor
  | .shl _ _ => .shl
  | .shr _ _ => .shr

/-- The instruction of an operation with operand bytes `a` and `b`; a byte the format does not have is
not looked at. -/
def Op.assemble : Op → Byte → Byte → Instr
  | .hlt,  _, _ => .hlt
  | .ldi,  a, b => .ldi a b
  | .prn,  a, _ => .prn a
  | .push, a, _ => .push a
  | .pop,  a, _ => .pop a
  | .call, a, _ => .call a
  | .ret,  _, _ => .ret
  | .st,   a, b => .st a b
  | .iret, _, _ => .iret
  | .jmp,  a, _ => .jmp a
  | .pra,  a, _ => .pra a
  | .jeq,  a, _ => .jeq a
  | .jne,  a, _ => .jne a
  | .addi, a, b => .addi a b
  | .add,  a, b => .add a b
  | .mul,  a, b => .mul a b
  | .mod,  a, b => .mod a b
  | .cmp,  a, b => .cmp a b
  | .and,  a, b => .and a b
  | .not,  a, _ => .not a
  | .or,   a, b => .or a b
  | .xor,  a, b => .xor a b
  | .shl,  a, b => .shl a b
  | .shr,  a, b => .shr a b

/-- The decoder over any opcode map: the instruction at the head of a byte sequence and the bytes after it.
Total; what it rejects, it rejects by name (R78, R80, R98). -/
def decodeWith (m : AluOpcodeMap) : List Byte → Except DecodeReject (Instr × List Byte)
  | [] => .error .noByte
  | opcode :: rest =>
    match lookupOp m opcode with
    | none => .error (.unrecognizedOpcode opcode)
    | some o =>
      match o.operandCount, rest with
      | 0, bytes => .ok (o.assemble 0 0, bytes)
      | 1, a :: bytes => .ok (o.assemble a 0, bytes)
      | _ + 2, a :: b :: bytes => .ok (o.assemble a b, bytes)
      | _, _ => .error (.operandMissing o)

/-- The decoder of this hardware, with the default map. -/
def decode (bytes : List Byte) : Except DecodeReject (Instr × List Byte) :=
  decodeWith defaultAluOpcodeMap bytes

/-- The operand bytes of an instruction, in ascending address order (R54, R71). -/
def Instr.operands : Instr → List Byte
  | .hlt | .ret | .iret => []
  | .prn a | .push a | .pop a | .call a | .jmp a | .pra a | .jeq a | .jne a | .not a => [a]
  | .ldi a imm | .addi a imm => [a, imm]
  | .st a b | .add a b | .mul a b | .mod a b | .cmp a b => [a, b]
  | .and a b | .or a b | .xor a b | .shl a b | .shr a b => [a, b]

/-- The encoder over any opcode map (R70, R71). -/
def encodeWith (m : AluOpcodeMap) (i : Instr) : List Byte :=
  i.op.opcode m :: i.operands

/-- The encoder of this hardware, with the default map. -/
def encode (i : Instr) : List Byte :=
  encodeWith defaultAluOpcodeMap i

/-- The bytes of the longest instruction (3, R70) whose bits 0 to nbits - 1 are those of `w` and whose further
bits are 0; bit 0 is the least significant bit of the first byte. -/
def wordBytes (nbits w : Nat) : List Byte :=
  [0, 8, 16].map fun k => BitVec.ofNat 8 (w % 2 ^ nbits / 2 ^ k)

/-- The instruction the decoder reads from such a word. -/
def decodeTableWord (nbits w : Nat) : Option Instr :=
  match decode (wordBytes nbits w) with
  | .ok (i, _) => some i
  | .error _ => none

end Sys2Proof
end

