-- ==== Sys2Proof/Machine/State.lean ====
section
/-! DEFINITION. The state of the core as plain data (spec/10_state.md R20: the complete tuple), the reasons a
step can stop, and the state after reset (R40, R200). -/

namespace Sys2Proof.Machine

/-- The seven causes of a fatal error (R171). -/
inductive FatalCause where
  | unrecognizedOpcode
  | moduloByZero
  | operandAddressOutOfRange
  | pcOutOfRange
  | returnAddressOutOfRange
  | stackPointerOutOfRange
  | invalidRegisterIndex
  deriving DecidableEq, Repr

/-- The run state `run`, which is also the interface `outcome` (R6, R10, R32). -/
inductive RunState where
  | running
  | halted
  | faulted (cause : FatalCause)
  deriving DecidableEq, Repr

/-- Memory (R50): the cells that do not hold 0, addresses strictly rising. An address that is not listed
reads as 0 (DESIGN CHOICE, log 12). -/
abbrev Memory := List Host.Cell

/-- The state. `ticks` and `cycle` are the model's own fields for the input `tick` (log 13); every other field
is the spec's. -/
structure State where
  mem   : Memory           -- `mem[0..255]` (R50)
  regs  : Vector Byte 8    -- `x[0..7]`; 5 = IM, 6 = IS, 7 = SP (R21, R36)
  pc    : Nat              -- 0 to 256 (R27)
  fl    : Byte             -- bit 0 GreaterThan, 1 Equal, 2 LessThan (R29)
  run   : RunState         -- R32
  hint  : List Byte        -- HintBuffer, code points, oldest first (R33, R131)
  prn   : List Byte        -- print stream, oldest first (R34)
  ticks : List Bool        -- inputs `tick` already supplied, next cycle first (R6, R176)
  cycle : Nat              -- ticks sampled so far
  deriving DecidableEq, Repr

/-- The reasons the machine could stop without a next state. There is none: every cycle of R90 ends in a next
state, a fatal error being the next state FAULTED(cause) (R10; log 19), and at HALTED or FAULTED the state
stays as it is (R91; log 18). -/
inductive Fault
  deriving DecidableEq, Repr

/-- The reasons an instruction could have no meaning. -/
inductive Refusal where
  /-- Raised by an arm of `exec` that is rejected by name; safe (nothing is proved of it). No arm raises it now. -/
  | notModelled (mnemonic : String)
  deriving DecidableEq, Repr

/-- `SP_INIT` (R5, R39). -/
def spInit : Byte := 244#8

/-- The registers after reset: SP is given by the source, the others are 0 (DESIGN CHOICE, log 11; UNSAFE). -/
def regsReset : Vector Byte 8 :=
  #v[0#8, 0#8, 0#8, 0#8, 0#8, 0#8, 0#8, spInit]

/-- The state after reset, with no program image loaded (R40, R200). Memory beyond an image is 0 (DESIGN
CHOICE, log 12; UNSAFE), `fl` is 0 (DESIGN CHOICE, log 11; UNSAFE), no tick is supplied and none sampled
(DESIGN CHOICE, log 13). -/
def State.reset : State where
  mem   := []
  regs  := regsReset
  pc    := 0
  fl    := 0#8
  run   := .running
  hint  := []
  prn   := []
  ticks := []
  cycle := 0

end Sys2Proof.Machine
end

