-- ==== Sys2Proof/Machine/Ops.lean ====
section
/-! DEFINITION. The named operations over the state: memory, registers, the fatal error, the stack, taking an
interrupt and returning from one (spec/00_scope.md R9, spec/20_memory.md, spec/44_stack_control.md R140, R141,
spec/45_system.md R161, spec/60_exceptions.md R170, R179). -/

namespace Sys2Proof.Machine

/-- What a cycle or an instruction answers. -/
abbrev Result := Host.Outcome State Fault Refusal

/-! Parameters (R5). IM, IS and SP, the registers 5, 6 and 7, are written by number, as the spec writes `x[5]`,
`x[6]` and `x[7]`. -/

/-- `MEM_SIZE`, the number of memory cells. -/
def memSize : Nat := 256

/-- `VEC_BASE`, the first address of the interrupt vector table (R58). -/
def vecBase : Byte := 248#8

/-- `TIMER_IS_VALUE`, what the timer writes to register 6 (R176). -/
def timerIsValue : Byte := 1#8

/-- `SP_BOUNDS_POLICY`. DESIGN CHOICE of the spec (D4; log 4; safe). -/
def spBoundsPolicy : SpBoundsPolicy := .fault

/-! Memory. -/

/-- The value an unlisted address reads as (DESIGN CHOICE, log 12; UNSAFE). -/
def unlistedByte : Byte := 0#8

/-- The byte at an address (R51). -/
def Memory.get : Memory → Nat → Byte
  | [], _ => unlistedByte
  | c :: m, k => if c.1 = k then c.2 else Memory.get m k

/-- Put a cell before the first cell of a higher address. -/
def Memory.insertCell (c : Host.Cell) : Memory → Memory
  | [] => [c]
  | d :: m => if c.1 < d.1 then c :: d :: m else d :: Memory.insertCell c m

/-- Store a byte at an address, keeping the canonical form (R51). -/
def Memory.set (m : Memory) (k : Nat) (v : Byte) : Memory :=
  let others := m.filter fun c => decide (c.1 ≠ k)
  if v = unlistedByte then others else Memory.insertCell (k, v) others

/-- Store consecutive bytes from an address upward. -/
def Memory.setBytes (m : Memory) (k : Nat) : List Byte → Memory
  | [] => m
  | v :: vs => Memory.setBytes (m.set k v) (k + 1) vs

/-- The bytes at `k`, `k + 1`, … that exist, at most `n` of them (R52: nothing above 255 is read). -/
def Memory.bytesFrom (m : Memory) (k : Nat) : Nat → List Byte
  | 0 => []
  | n + 1 => if k < memSize then m.get k :: Memory.bytesFrom m (k + 1) n else []

/-- The canonical form: addresses strictly rising and inside the address space, no cell that reads as an
unlisted address does. -/
def Memory.wf (m : Memory) : Bool :=
  decide (m.Pairwise fun c d => c.1 < d.1) &&
    m.all fun c => decide (c.1 < memSize) && decide (c.2 ≠ unlistedByte)

/-- `MemRead(addr, 1)` (R9, R51). An address is a byte, so it is never out of range (R52, C12). -/
def State.readMem (s : State) (a : Byte) : Byte :=
  s.mem.get a.toNat

/-- `MemWrite(addr, 1, v)` (R9, R51). -/
def State.writeMem (s : State) (a v : Byte) : State :=
  { s with mem := s.mem.set a.toNat v }

/-! Registers, program counter, flags, run state, outputs. -/

/-- `x[i]` (R9, R21). -/
def State.reg (s : State) (r : Reg) : Byte :=
  s.regs[r.val]

/-- `x[i] <- v` (R9, R21). -/
def State.setReg (s : State) (r : Reg) (v : Byte) : State :=
  { s with regs := s.regs.set r.val v }

/-- `pc <- t` (R9). -/
def State.setPc (s : State) (t : Nat) : State :=
  { s with pc := t }

/-- `pc <- pc + width(op)`; the program counter does not wrap (R27, R99; log 2). -/
def State.advance (s : State) (width : Nat) : State :=
  { s with pc := s.pc + width }

/-- `fl <- v`, all 8 bits (R29; log 16). -/
def State.setFl (s : State) (v : Byte) : State :=
  { s with fl := v }

/-- A write of the run state (R32). -/
def State.setRun (s : State) (r : RunState) : State :=
  { s with run := r }

/-- `hint <- hint ++ [chr(v)]`, kept as the code point (R131; log 21). -/
def State.appendHint (s : State) (v : Byte) : State :=
  { s with hint := s.hint ++ [v] }

/-- `prn <- prn ++ [v]` (R130; log 15). -/
def State.appendPrn (s : State) (v : Byte) : State :=
  { s with prn := s.prn ++ [v] }

/-- `raise Fatal(cause)` (R9, R170): FAULTED(cause), and nothing else; in particular `pc` stays (R28 f). -/
def State.raise (s : State) (cause : FatalCause) : State :=
  s.setRun (.faulted cause)

/-! Sequences that a fatal error may end. -/

/-- The outcome of an operation that may raise a fatal error: a value and the state to go on from, or the state
after the raise. -/
inductive Ran (α : Type) where
  | ok (value : α) (s : State)
  | raised (s : State)
  deriving DecidableEq, Repr

/-- Go on with `k`; "a `raise` abandons the rest" (R9). -/
def Ran.andThen {α β : Type} (r : Ran α) (k : α → State → Ran β) : Ran β :=
  match r with
  | .ok v s => k v s
  | .raised s => .raised s

/-- The state the sequence ends in. -/
def Ran.final {α : Type} : Ran α → State
  | .ok _ s => s
  | .raised s => s

/-- The cycle's outcome: a next state in either case (R10). -/
def Ran.outcome {α : Type} (r : Ran α) : Result :=
  .next r.final

/-! The stack (R140, R141). -/

/-- `Push(v)` under a policy (R140): decrement the stack pointer, then write. -/
def pushWith (policy : SpBoundsPolicy) (v : Byte) (s : State) : Ran Unit :=
  if policy = .fault ∧ s.reg 7 = 0#8 then .raised (s.raise .stackPointerOutOfRange)
  else .ok () ((s.setReg 7 (s.reg 7 - 1#8)).writeMem (s.reg 7 - 1#8) v)

/-- `Pop()` under a policy (R141): read at the stack pointer, then increment. The byte stays in memory. -/
def popWith (policy : SpBoundsPolicy) (s : State) : Ran Byte :=
  if policy = .fault ∧ s.reg 7 = 255#8 then .raised (s.raise .stackPointerOutOfRange)
  else .ok (s.readMem (s.reg 7)) (s.setReg 7 (s.reg 7 + 1#8))

/-- `Push(v)` of this hardware. -/
def push (v : Byte) (s : State) : Ran Unit :=
  pushWith spBoundsPolicy v s

/-- `Pop()` of this hardware. -/
def pop (s : State) : Ran Byte :=
  popWith spBoundsPolicy s

/-- Push the registers of a list, first one first. -/
def pushRegs : List Reg → State → Ran Unit
  | [], s => .ok () s
  | r :: rs, s => (push (s.reg r) s).andThen fun _ s' => pushRegs rs s'

/-- Pop into the registers of a list, first one first. -/
def popRegs : List Reg → State → Ran Unit
  | [], s => .ok () s
  | r :: rs, s => (pop s).andThen fun v s' => popRegs rs (s'.setReg r v)

/-! Taking an interrupt and returning from it. -/

/-- The program counter as the byte a push stores; at an entry `pc` is at most 255 (R92; log 26). -/
def pcByte (pc : Nat) : Byte :=
  BitVec.ofNat 8 pc

/-- The address of the vector of interrupt `i`, `248 + i` (R58, R181). -/
def vectorAddress (i : Fin 8) : Byte :=
  vecBase + BitVec.ofNat 8 i.val

/-- `InterruptEntry(i)` (R179, C1): clear the whole status register, push `pc` and `fl`, read the vector, push
`x[0]` to `x[6]`, jump. The pushes before a failing one have taken effect (R174; log 19). -/
def interruptEntry (i : Fin 8) (s : State) : Ran Unit :=
  (push (pcByte s.pc) (s.setReg 6 0#8)).andThen fun _ s1 =>
  (push s1.fl s1).andThen fun _ s2 =>
  (pushRegs [0, 1, 2, 3, 4, 5, 6] s2).andThen fun _ s3 =>
  .ok () (s3.setPc (s2.readMem (vectorAddress i)).toNat)

/-- The nine pops of IRET (R161, R186): `x[6]` down to `x[0]`, `fl` unmasked, `pc`. -/
def interruptReturn (s : State) : Ran Unit :=
  (popRegs [6, 5, 4, 3, 2, 1, 0] s).andThen fun _ s1 =>
  (pop s1).andThen fun f s2 =>
  (pop (s2.setFl f)).andThen fun p s3 =>
  .ok () (s3.setPc p.toNat)

end Sys2Proof.Machine
end

