-- ==== Sys2Proof/Machine/Cycle.lean ====
section
/-! DEFINITION. The dispatch cycle up to the point where an instruction runs (spec/40_dispatch.md R90 steps 0 to
6): the range check of `pc`, the timer, the interrupt check, fetch and decode. -/

namespace Sys2Proof.Machine

/-- The input `tick` of the coming cycle (R6, R176): the next supplied one, and beyond those a FREE VALUE
(log 13). -/
def State.tick (s : State) : Bool :=
  match s.ticks with
  | t :: _ => t
  | [] => Config.tick s.cycle

/-- The input of this cycle has been sampled (R6: "one bit sampled once per dispatch cycle"). -/
def State.sampleTick (s : State) : State :=
  { s with ticks := s.ticks.tail, cycle := s.cycle + 1 }

/-- Register 6 after the timer check: the literal 1 after a tick, else what it held (R93, R176). -/
def timerStatus (s : State) : Byte :=
  if s.tick then timerIsValue else s.reg 6

/-- Step 1, the timer check (R93): only register 6 can change. -/
def timerCheck (s : State) : State :=
  s.sampleTick.setReg 6 (timerStatus s)

/-- Interrupt `i` is enabled and pending (R178). -/
def State.requests (s : State) (i : Fin 8) : Bool :=
  (s.reg 5).getLsbD i.val && (s.reg 6).getLsbD i.val

/-- Step 2, the interrupt check (R94, R178): the least enabled pending interrupt; none if `x[5] & x[6]` = 0,
and then nothing is cleared (R183; D25; log 22). The test `x[6] >= 1` is implied (log 27). -/
def pendingInterrupt (s : State) : Option (Fin 8) :=
  [0, 1, 2, 3, 4, 5, 6, 7].find? s.requests

/-- The cause a rejected byte sequence raises (R97, R98). -/
def rejectCause : DecodeReject → FatalCause
  | .noByte => .pcOutOfRange
  | .unrecognizedOpcode _ => .unrecognizedOpcode
  | .operandMissing _ => .operandAddressOutOfRange

/-- Steps 3 to 6: the opcode byte at `pc`, the operand bytes at `pc + 1` and `pc + 2`; a byte beyond address 255
does not exist (R95, R98). -/
def fetch (s : State) : Except DecodeReject Instr :=
  match decode (s.mem.bytesFrom s.pc 3) with
  | .ok (i, _) => .ok i
  | .error e => .error e

/-- What a cycle comes to before step 7. -/
inductive Prepared where
  | ended (s : State)                -- the cycle is over
  | execute (i : Instr) (s : State)  -- step 7 runs `i` from `s`
  deriving DecidableEq, Repr

/-- Steps 1 to 6 of a cycle whose `pc` is in range: a service ends the cycle and fetches nothing (R94; D14;
log 14). -/
def prepareInRange (s : State) : Prepared :=
  match pendingInterrupt (timerCheck s) with
  | some i => .ended (interruptEntry i (timerCheck s)).final
  | none =>
    match fetch (timerCheck s) with
    | .ok i => .execute i (timerCheck s)
    | .error e => .ended ((timerCheck s).raise (rejectCause e))

/-- Steps 0 to 6. At HALTED and FAULTED no cycle starts and nothing changes (R91; log 18); a `pc` above 255
raises `PcOutOfRange` before the timer check (R92; D2; log 2). -/
def prepare (s : State) : Prepared :=
  match s.run with
  | .halted => .ended s
  | .faulted _ => .ended s
  | .running => if 255 < s.pc then .ended (s.raise .pcOutOfRange) else prepareInRange s

/-- The part of `State.withFetchWord` besides the bytes: the machine runs, the coming `tick` is 0, and no
enabled interrupt is pending, so that the next cycle fetches (log 24). -/
def State.armFetch (s : State) : State :=
  let ready := { s with run := .running, ticks := false :: s.ticks.tail }
  if (pendingInterrupt s).isSome then ready.setReg 6 0#8 else ready

/-- Bytes stored from `pc` upward, as far as the address space goes. -/
def State.placeAtPc (s : State) (bytes : List Byte) : State :=
  { s with mem := s.mem.setBytes s.pc (bytes.take (memSize - s.pc)) }

end Sys2Proof.Machine
end

