-- ==== Sys2Proof/Machine/Flags.lean ====
section
/-! DEFINITION. The flags register: its bits and the one computation that sets them (spec/10_state.md R29 to
R31, spec/41_alu.md R103). No other instruction computes a flag. -/

namespace Sys2Proof.Machine

/-- `FL_G`, `FL_E`, `FL_L` as masks: GreaterThan bit 0, Equal bit 1, LessThan bit 2 (R5, R29). -/
def flagG : Byte := 1#8

def flagE : Byte := 2#8

def flagL : Byte := 4#8

/-- The one flag a comparison of `x` with `y` sets, unsigned (R103; D8; log 8). -/
def compareFlag (x y : Byte) : Byte :=
  if y.toNat < x.toNat then flagG
  else if x.toNat = y.toNat then flagE
  else flagL

/-- `fl[1]`, the Equal flag that JEQ and JNE read (R31). -/
def State.equalFlag (s : State) : Bool :=
  s.fl.getLsbD 1

/-- OR a flag in; no bit is cleared (R30, R103). -/
def State.orFlag (s : State) (f : Byte) : State :=
  s.setFl (s.fl ||| f)

end Sys2Proof.Machine
end

