-- ==== Sys2Proof/Machine/Operands.lean ====
section
/-! DEFINITION. The operand forms: register index, two register indices, immediate (spec/30_encoding.md R71,
R73, R74), and the two addresses an instruction stores to (spec/42_move_store.md R123). -/

namespace Sys2Proof.Machine

/-- The register a byte names, none above 7 (R73). -/
def regOf (b : Byte) : Option Reg :=
  if h : b.toNat < 8 then some ⟨b.toNat, h⟩ else none

/-- The operand byte that names a register (R73, R82). -/
def regByte (r : Reg) : Byte :=
  BitVec.ofNat 8 r.val

/-- A register operand: a byte above 7 raises `InvalidRegisterIndex` before any effect of the instruction
(R73; DESIGN CHOICE of the spec, D6; log 6; safe). -/
def withReg (a : Byte) (s : State) (k : Reg → Ran Unit) : Ran Unit :=
  match regOf a with
  | some r => k r
  | none => .raised (s.raise .invalidRegisterIndex)

/-- Two register operands, `a` checked first (R73, R188). -/
def withRegs (a b : Byte) (s : State) (k : Reg → Reg → Ran Unit) : Ran Unit :=
  withReg a s fun ra => withReg b s fun rb => k ra rb

/-- An immediate is the byte itself, unsigned, neither extended nor scaled (R74). -/
def immediate (imm : Byte) : Byte :=
  imm

/-- The address ST stores to: the value of its first register, with no offset (R122, R123). -/
def storeAddress (s : State) (ra : Reg) : Byte :=
  s.reg ra

/-- The address a push stores to: one below the stack pointer (R123, R140). -/
def pushAddress (s : State) : Byte :=
  s.reg 7 - 1#8

end Sys2Proof.Machine
end

