-- ==== Sys2Proof/Machine/Alu.lean ====
section
/-! DEFINITION. The ten ALU instructions (spec/41_alu.md). Results are computed on natural numbers and reduced
modulo 256 (R111). -/

namespace Sys2Proof.Machine

/-- `v mod 256` (R9). -/
def narrow (v : Nat) : Byte :=
  BitVec.ofNat 8 v

/-- The shape of the two-operand ALU instructions: both registers are read, then register `a` is written and
`pc` advances by 3 (R100). -/
def aluBinary (f : Byte → Byte → Byte) (a b : Byte) (s : State) : Ran Unit :=
  withRegs a b s fun ra rb => .ok () ((s.setReg ra (f (s.reg ra) (s.reg rb))).advance 3)

/-- R101. -/
def aluAdd (x y : Byte) : Byte :=
  narrow (x.toNat + y.toNat)

/-- R102: the low 8 bits of the product. -/
def aluMul (x y : Byte) : Byte :=
  narrow (x.toNat * y.toNat)

/-- R110: the unsigned remainder; used for a divisor that is not 0. -/
def aluMod (x y : Byte) : Byte :=
  narrow (x.toNat % y.toNat)

/-- R104. -/
def aluAnd (x y : Byte) : Byte :=
  x &&& y

/-- R105. -/
def aluOr (x y : Byte) : Byte :=
  x ||| y

/-- R106. -/
def aluXor (x y : Byte) : Byte :=
  x ^^^ y

/-- R107: one's complement. -/
def aluNot (x : Byte) : Byte :=
  narrow (255 - x.toNat)

/-- R108: the amount is the whole byte (DESIGN CHOICE of the spec, D7; log 7; UNSAFE for amounts of 8 or more). -/
def aluShl (x y : Byte) : Byte :=
  narrow (x.toNat * 2 ^ y.toNat)

/-- R109: logical, the amount is the whole byte (DESIGN CHOICE of the spec, D7; log 7; UNSAFE as for SHL). -/
def aluShr (x y : Byte) : Byte :=
  narrow (x.toNat / 2 ^ y.toNat)

/-- ADD (R101). -/
def execAdd (a b : Byte) (s : State) : Result :=
  (aluBinary aluAdd a b s).outcome

/-- MUL (R102). -/
def execMul (a b : Byte) (s : State) : Result :=
  (aluBinary aluMul a b s).outcome

/-- MOD (R110): a divisor of 0 raises `ModuloByZero` before anything is written (R173). -/
def execMod (a b : Byte) (s : State) : Result :=
  (withRegs a b s fun ra rb =>
    if s.reg rb = 0#8 then .raised (s.raise .moduloByZero)
    else .ok () ((s.setReg ra (aluMod (s.reg ra) (s.reg rb))).advance 3)).outcome

/-- CMP (R103): no register is written, one flag is ORed in. -/
def execCmp (a b : Byte) (s : State) : Result :=
  (withRegs a b s fun ra rb =>
    .ok () ((s.orFlag (compareFlag (s.reg ra) (s.reg rb))).advance 3)).outcome

/-- AND (R104). -/
def execAnd (a b : Byte) (s : State) : Result :=
  (aluBinary aluAnd a b s).outcome

/-- NOT (R107): one operand, `pc` advances by 2. -/
def execNot (a : Byte) (s : State) : Result :=
  (withReg a s fun ra => .ok () ((s.setReg ra (aluNot (s.reg ra))).advance 2)).outcome

/-- OR (R105). -/
def execOr (a b : Byte) (s : State) : Result :=
  (aluBinary aluOr a b s).outcome

/-- XOR (R106). -/
def execXor (a b : Byte) (s : State) : Result :=
  (aluBinary aluXor a b s).outcome

/-- SHL (R108). -/
def execShl (a b : Byte) (s : State) : Result :=
  (aluBinary aluShl a b s).outcome

/-- SHR (R109). -/
def execShr (a b : Byte) (s : State) : Result :=
  (aluBinary aluShr a b s).outcome

end Sys2Proof.Machine
end

