-- ==== Sys2Proof/Machine/MoveStore.lean ====
section
/-! DEFINITION. The immediate and store instructions (spec/42_move_store.md). -/

namespace Sys2Proof.Machine

/-- LDI (R120). -/
def execLdi (a imm : Byte) (s : State) : Result :=
  (withReg a s fun ra => .ok () ((s.setReg ra (immediate imm)).advance 3)).outcome

/-- ADDI (R121): the sum modulo 256; no flag. -/
def execAddi (a imm : Byte) (s : State) : Result :=
  (withReg a s fun ra => .ok () ((s.setReg ra (aluAdd (s.reg ra) (immediate imm))).advance 3)).outcome

/-- ST (R122): register `a` holds the address, register `b` the value. -/
def execSt (a b : Byte) (s : State) : Result :=
  (withRegs a b s fun ra rb =>
    .ok () ((s.writeMem (storeAddress s ra) (s.reg rb)).advance 3)).outcome

end Sys2Proof.Machine
end

