-- ==== Sys2Proof/Machine/Output.lean ====
section
/-! DEFINITION. The output instructions (spec/43_output.md). -/

namespace Sys2Proof.Machine

/-- PRN (R130): the register's value joins the print stream; `hint` is not written. -/
def execPrn (a : Byte) (s : State) : Result :=
  (withReg a s fun ra => .ok () ((s.appendPrn (s.reg ra)).advance 2)).outcome

/-- PRA (R131): one character, code point = the register's value, joins the HintBuffer. -/
def execPra (a : Byte) (s : State) : Result :=
  (withReg a s fun ra => .ok () ((s.appendHint (s.reg ra)).advance 2)).outcome

/-- `chr(v)`: the character whose code point is `v` (R131; D22). -/
def chr (v : Byte) : Char :=
  Char.ofNat v.toNat

/-- The HintBuffer as the caller reads it (R33, R212). -/
def State.hintText (s : State) : List Char :=
  s.hint.map chr

end Sys2Proof.Machine
end

