-- ==== Sys2Proof/Machine/StackControl.lean ====
section
/-! DEFINITION. The stack and control-transfer instructions (spec/44_stack_control.md). The register operand is
read before anything is written and a register destination is written last (R139; DESIGN CHOICE of the spec,
D10; log 10; UNSAFE for operand R7). -/

namespace Sys2Proof.Machine

/-- PUSH (R142). -/
def execPush (a : Byte) (s : State) : Result :=
  (withReg a s fun ra => (push (s.reg ra) s).andThen fun _ s' => .ok () (s'.advance 2)).outcome

/-- POP (R143). -/
def execPop (a : Byte) (s : State) : Result :=
  (withReg a s fun ra => (pop s).andThen fun v s' => .ok () ((s'.setReg ra v).advance 2)).outcome

/-- CALL (R144): a return address of 256 raises `ReturnAddressOutOfRange` first (D5; log 5; safe). -/
def execCall (a : Byte) (s : State) : Result :=
  (withReg a s fun ra =>
    if 255 < s.pc + 2 then .raised (s.raise .returnAddressOutOfRange)
    else (push (pcByte (s.pc + 2)) s).andThen fun _ s' => .ok () (s'.setPc (s.reg ra).toNat)).outcome

/-- RET (R145). -/
def execRet (s : State) : Result :=
  ((pop s).andThen fun v s' => .ok () (s'.setPc v.toNat)).outcome

/-- JMP (R146). -/
def execJmp (a : Byte) (s : State) : Result :=
  (withReg a s fun ra => .ok () (s.setPc (s.reg ra).toNat)).outcome

/-- JEQ (R147): not taken, `pc` advances by 2 (DESIGN CHOICE of the spec, D9; log 9; UNSAFE). -/
def execJeq (a : Byte) (s : State) : Result :=
  (withReg a s fun ra =>
    .ok () (if s.equalFlag then s.setPc (s.reg ra).toNat else s.advance 2)).outcome

/-- JNE (R148): not taken, `pc` advances by 2 (DESIGN CHOICE of the spec, D9; log 9; UNSAFE). -/
def execJne (a : Byte) (s : State) : Result :=
  (withReg a s fun ra =>
    .ok () (if s.equalFlag then s.advance 2 else s.setPc (s.reg ra).toNat)).outcome

end Sys2Proof.Machine
end

