-- ==== Sys2Proof/Machine/System.lean ====
section
/-! DEFINITION. The system instructions (spec/45_system.md). -/

namespace Sys2Proof.Machine

/-- HLT (R160, R162): HALTED, `pc` stays at the HLT byte (DESIGN CHOICE of the spec, D18; log 18). -/
def execHlt (s : State) : Result :=
  .next (s.setRun .halted)

/-- IRET (R161). -/
def execIret (s : State) : Result :=
  (interruptReturn s).outcome

end Sys2Proof.Machine
end

