-- ==== Sys2Proof/Machine/Step.lean ====
section
/-! DEFINITION. One dispatch cycle (spec/40_dispatch.md R90). -/

namespace Sys2Proof.Machine

/-- Steps 0 to 6, then step 7 where an instruction was fetched. -/
def step (s : State) : Host.Outcome State Fault Refusal :=
  match prepare s with
  | .ended t => .next t
  | .execute i t => exec i t

/-- `s` with the instruction whose bits are `w` at `pc`, ready to be fetched by the next cycle (log 24). -/
def State.withFetchWord (s : State) (nbits w : Nat) : State :=
  (s.placeAtPc (wordBytes nbits w)).armFetch

end Sys2Proof.Machine
end

