-- ==== Sys2Proof/Machine/Diagnostic.lean ====
section
/-! DEFINITION. The diagnostic of a fatal error (spec/60_exceptions.md R171, last column; R172): a view of the
FAULTED state, no state of its own (R20; log 25). -/

namespace Sys2Proof.Machine

/-- The recorded values; none where R171 records no such value for the cause. -/
structure Diagnostic where
  cause : FatalCause
  byte  : Option Byte
  pc    : Option Nat
  sp    : Option Byte
  deriving DecidableEq, Repr

/-- The first operand byte of the instruction at `pc` that names no register (R73). -/
def badRegByte (s : State) : Option Byte :=
  match fetch s with
  | .ok i => i.regOperands.find? fun b => !isRegByte b
  | .error _ => none

/-- What R171 records for a cause. -/
def diagnosticFor (s : State) : FatalCause → Diagnostic
  | .unrecognizedOpcode       => ⟨.unrecognizedOpcode, some (s.mem.get s.pc), some s.pc, none⟩
  | .moduloByZero             => ⟨.moduloByZero, none, some s.pc, none⟩
  | .operandAddressOutOfRange => ⟨.operandAddressOutOfRange, none, some s.pc, none⟩
  | .pcOutOfRange             => ⟨.pcOutOfRange, none, none, none⟩
  | .returnAddressOutOfRange  => ⟨.returnAddressOutOfRange, none, some s.pc, none⟩
  | .stackPointerOutOfRange   => ⟨.stackPointerOutOfRange, none, some s.pc, some (s.reg 7)⟩
  | .invalidRegisterIndex     => ⟨.invalidRegisterIndex, badRegByte s, some s.pc, none⟩

/-- The diagnostic of a state: none unless it is FAULTED. -/
def State.diagnostic (s : State) : Option Diagnostic :=
  match s.run with
  | .faulted cause => some (diagnosticFor s cause)
  | .running => none
  | .halted => none

end Sys2Proof.Machine
end

