-- ==== Sys2Proof/Machine/Load.lean ====
section
/-! DEFINITION. The interface `image` (spec/00_scope.md R6, spec/70_reset_and_hazards.md R201): the program load
before the first cycle. -/

namespace Sys2Proof.Machine

/-- `LOAD_BASE`, the address of the first image byte (R5). -/
def loadBase : Nat := 0

/-- The state from which a core with this image starts; none for an image longer than memory, whose load fails
(R201; D12; log 12). -/
def State.load (image : List Byte) : Option State :=
  if image.length ≤ memSize then
    some { State.reset with mem := State.reset.mem.setBytes loadBase image }
  else none

end Sys2Proof.Machine
end

