-- ==== Sys2Proof/Machine/ProgramText.lean ====
section
/-! DEFINITION. The program file format (spec/30_encoding.md R81) and the load of such a file
(spec/70_reset_and_hazards.md R201). Reading the file itself is the loader's (spec/00_scope.md R4): the lines are
given. -/

namespace Sys2Proof.Machine

/-- Why a file is no program: the loader's `LoadError` for a line that is neither skipped nor a literal (R81), or
an image that does not fit (R201; D12; log 12). -/
inductive LoadError where
  | badLine
  | imageTooLong
  deriving DecidableEq, Repr

/-- Blanks around a literal are skipped (DESIGN CHOICE, log 31). -/
def isBlank (c : Char) : Bool :=
  c == ' ' || c == '\t'

/-- What stands on a line before its comment, without the blanks around it. -/
def lineContent (line : List Char) : List Char :=
  (((line.takeWhile (· != '#')).dropWhile isBlank).reverse.dropWhile isBlank).reverse

/-- The bits that 0 and 1 characters stand for, appended to the number `acc`, most significant first. -/
def binaryFrom (acc : Nat) : List Char → Option Nat
  | [] => some acc
  | c :: cs => if c = '0' then binaryFrom (2 * acc) cs else if c = '1' then binaryFrom (2 * acc + 1) cs else none

/-- An 8-bit binary literal: exactly 8 characters of 0 and 1. -/
def literalByte (content : List Char) : Option Byte :=
  if content.length = 8 then (binaryFrom 0 content).map (BitVec.ofNat 8) else none

/-- The literal of a byte, as a program file writes it: bit 7 first. -/
def byteLiteral (b : Byte) : List Char :=
  [7, 6, 5, 4, 3, 2, 1, 0].map fun k => if b.getLsbD k then '1' else '0'

/-- The literals of a file, in order; blank and comment-only lines are skipped. -/
def parseProgram : List (List Char) → Except LoadError (List Byte)
  | [] => .ok []
  | line :: lines =>
    match lineContent line with
    | [] => parseProgram lines
    | c :: cs =>
      match literalByte (c :: cs), parseProgram lines with
      | some b, .ok bs => .ok (b :: bs)
      | some _, .error e => .error e
      | none, _ => .error .badLine

/-- The state from which a core starts that was given this file. -/
def State.loadText (lines : List (List Char)) : Except LoadError State :=
  match parseProgram lines with
  | .error e => .error e
  | .ok image =>
    match State.load image with
    | some s => .ok s
    | none => .error .imageTooLong

end Sys2Proof.Machine
end

