-- ==== Sys2Proof/Safety.lean ====
section
/-! DEFINITION. The terms in which claims speak of states and runs: the invariant of every reachable state and
the outcome of a run (spec/10_state.md R32, R43; spec/70_reset_and_hazards.md R212). -/

namespace Sys2Proof.Machine

/-- The 24 recognized opcode bytes in ascending order, as R78 lists them under the default ALU map (log 1). -/
def recognizedOpcodes : List Byte :=
  [0x01#8, 0x11#8, 0x13#8, 0x45#8, 0x46#8, 0x47#8, 0x48#8, 0x50#8, 0x54#8, 0x55#8, 0x56#8, 0x69#8] ++
  [0x82#8, 0x84#8, 0x88#8, 0xA0#8, 0xA2#8, 0xA4#8, 0xA7#8, 0xA8#8, 0xAA#8, 0xAB#8, 0xAC#8, 0xAD#8]

/-- Holds in every reachable state: memory is in canonical form and `pc` is 0 to 256 (R27, R43 a). -/
def State.Inv (s : State) : Prop :=
  s.mem.wf = true ∧ s.pc ≤ memSize

/-- The run is over (R91, R212). -/
def State.Ended (s : State) : Prop :=
  s.run ≠ .running

/-- The run failed with some cause (R170, R212). -/
def State.Failed (s : State) : Prop :=
  ∃ cause, s.run = .faulted cause

/-- The cycle that starts at `s` fetches and runs `i`, from the state `t` its timer check leaves (R90). -/
def Runs (s : State) (i : Instr) (t : State) : Prop :=
  prepare s = .execute i t

end Sys2Proof.Machine
end

