-- ==== Sys2Proof/Certificates/Slice0/Obligations.lean ====
section
/-! DEFINITION. The statements for the provers, from the numbered rules of spec/. -/

open Sys2Proof Sys2Proof.Machine

/-! Encoding. -/

/-- R70, R71, R72, R76: under every legal opcode map, decoding the encoding of any instruction, whatever follows
it, gives the instruction with every operand bit, and leaves what follows. -/
def Obligations.DecodeOfEncode : Prop :=
  ∀ (m : AluOpcodeMap) (i : Instr) (rest : List Byte), m.Legal →
    decodeWith m (encodeWith m i ++ rest) = .ok (i, rest)

/-- R72, R80: what the decoder reads as an instruction is exactly that instruction's encoding. -/
def Obligations.DecodedBytesAreTheEncoding : Prop :=
  ∀ (m : AluOpcodeMap) (bytes rest : List Byte) (i : Instr),
    decodeWith m bytes = .ok (i, rest) → bytes = encodeWith m i ++ rest

/-- R71, R75, R76: words written out from the spec's encodings decode to the instructions they stand for. The ALU
opcodes are PRESUMED (log 1). -/
def Obligations.SpecWordsDecode : Prop :=
  decode [0b00000001#8] = .ok (.hlt, []) ∧
  decode [0b10000010#8, 3#8, 255#8] = .ok (.ldi 3 255, []) ∧
  decode [0b10000100#8, 1#8, 2#8] = .ok (.st 1 2, []) ∧
  decode [0b01001000#8, 6#8] = .ok (.pra 6, []) ∧
  decode [0b01010000#8, 2#8] = .ok (.call 2, []) ∧
  decode [0b00010011#8] = .ok (.iret, []) ∧
  decode [0b10100111#8, 4#8, 5#8] = .ok (.cmp 4 5, []) ∧
  decode [0b01101001#8, 7#8] = .ok (.not 7, [])

/-- R78: the decoder rejects as unrecognized every opcode byte but the 24 of the table, and only those. The ALU
opcodes are PRESUMED (log 1). -/
def Obligations.UnrecognizedIffNotInTable : Prop :=
  ∀ (opcode : Byte) (rest : List Byte),
    decode (opcode :: rest) = .error (.unrecognizedOpcode opcode) ↔ opcode ∉ recognizedOpcodes

/-- R70, R80, R98: an instruction whose last operand bytes are missing is rejected as that, whatever its bytes. -/
def Obligations.TruncatedEncodingIsRejected : Prop :=
  ∀ (m : AluOpcodeMap) (i : Instr) (n : Nat), m.Legal → 0 < n → n < (encodeWith m i).length →
    decodeWith m ((encodeWith m i).take n) = .error (.operandMissing i.op)

/-! The dispatch cycle. -/

/-- R90 steps 3 to 7: a running machine with `pc` in range and no enabled interrupt pending after the timer check
runs the instruction whose bytes stand at `pc`, from the state the timer check leaves. -/
def Obligations.StepRunsDecodedInstruction : Prop :=
  ∀ (s : State) (i : Instr) (rest : List Byte), s.run = .running → s.pc ≤ 255 →
    pendingInterrupt (timerCheck s) = none → decode (s.mem.bytesFrom s.pc 3) = .ok (i, rest) →
    step s = exec i (timerCheck s)

/-- R93, R176: the timer check writes the literal 1 to register 6 on a tick and changes nothing else of the spec's
state; it consumes one supplied input (the model's own fields, log 13). -/
def Obligations.TimerCheckWritesStatus : Prop :=
  ∀ s : State,
    ((timerCheck s).reg 6 = if s.tick then 1#8 else s.reg 6) ∧
    (∀ r : Reg, r ≠ 6 → (timerCheck s).reg r = s.reg r) ∧
    timerCheck s = { s with regs := (timerCheck s).regs, ticks := s.ticks.tail, cycle := s.cycle + 1 } ∧
    (∀ t rest, s.ticks = t :: rest → s.tick = t)

/-- R92: `pc` beyond 255 ends the cycle before the timer check (the spec's decision D2, log 2). -/
def Obligations.PcBeyondMemoryFaults : Prop :=
  ∀ s : State, s.run = .running → 255 < s.pc → step s = .next { s with run := .faulted .pcOutOfRange }

/-- R91: at HALTED and FAULTED nothing changes; that the step answers the same state is the model's choice
(log 18). -/
def Obligations.EndedRunStays : Prop :=
  ∀ s : State, s.run ≠ .running → step s = .next s

/-- R97, R172, R188: an opcode byte outside the table ends the cycle with no change but `run` (after the timer
check). The ALU opcodes of the table are PRESUMED (log 1). -/
def Obligations.UnrecognizedOpcodeFaults : Prop :=
  ∀ s : State, s.run = .running → s.pc ≤ 255 → pendingInterrupt (timerCheck s) = none →
    s.mem.get s.pc ∉ recognizedOpcodes →
    step s = .next { timerCheck s with run := .faulted .unrecognizedOpcode }

/-- R98: a last operand byte beyond address 255 ends the cycle before any effect (the spec's decision D3, log 3). The ALU
opcodes are PRESUMED (log 1). -/
def Obligations.OperandBeyondMemoryFaults : Prop :=
  ∀ (s : State) (o : Op), s.run = .running → s.pc ≤ 255 → pendingInterrupt (timerCheck s) = none →
    lookupOp defaultAluOpcodeMap (s.mem.get s.pc) = some o → 255 < s.pc + (o.width - 1) →
    step s = .next { timerCheck s with run := .faulted .operandAddressOutOfRange }

/-- R73: an instruction with a register byte above 7 has no effect but the fault (the spec's decision D6, log 6). -/
def Obligations.InvalidRegisterByteFaults : Prop :=
  ∀ (i : Instr) (s : State), i.wellFormed = false →
    exec i s = .next { s with run := .faulted .invalidRegisterIndex }

/-! ALU instructions. -/

/-- R100, R101, R102: ADD and MUL write the sum and the product modulo 256 to register `a` and advance by 3;
nothing else changes. -/
def Obligations.AddMulResult : Prop :=
  ∀ (s : State) (ra rb : Reg),
    (∃ t, exec (.add (regByte ra) (regByte rb)) s = .next t ∧
      (t.reg ra).toNat = ((s.reg ra).toNat + (s.reg rb).toNat) % 256 ∧
      t = { s.setReg ra (t.reg ra) with pc := s.pc + 3 }) ∧
    (∃ t, exec (.mul (regByte ra) (regByte rb)) s = .next t ∧
      (t.reg ra).toNat = ((s.reg ra).toNat * (s.reg rb).toNat) % 256 ∧
      t = { s.setReg ra (t.reg ra) with pc := s.pc + 3 })

/-- R104 to R107: AND, OR, XOR bit by bit, NOT as 255 minus the value; only register `a` and `pc` change. -/
def Obligations.BitwiseResult : Prop :=
  ∀ (s : State) (ra rb : Reg),
    (∃ t, exec (.and (regByte ra) (regByte rb)) s = .next t ∧
      (∀ k, (t.reg ra).getLsbD k = ((s.reg ra).getLsbD k && (s.reg rb).getLsbD k)) ∧
      t = { s.setReg ra (t.reg ra) with pc := s.pc + 3 }) ∧
    (∃ t, exec (.or (regByte ra) (regByte rb)) s = .next t ∧
      (∀ k, (t.reg ra).getLsbD k = ((s.reg ra).getLsbD k || (s.reg rb).getLsbD k)) ∧
      t = { s.setReg ra (t.reg ra) with pc := s.pc + 3 }) ∧
    (∃ t, exec (.xor (regByte ra) (regByte rb)) s = .next t ∧
      (∀ k, (t.reg ra).getLsbD k = ((s.reg ra).getLsbD k ^^ (s.reg rb).getLsbD k)) ∧
      t = { s.setReg ra (t.reg ra) with pc := s.pc + 3 }) ∧
    (∃ t, exec (.not (regByte ra)) s = .next t ∧
      (t.reg ra).toNat = 255 - (s.reg ra).toNat ∧
      t = { s.setReg ra (t.reg ra) with pc := s.pc + 2 })

/-- R108, R109: the shifts by the whole value of register `b` (amounts of 8 or more rest on the spec's decision
D7, log 7): bit by bit, zeros enter and no bit wraps around. -/
def Obligations.ShiftResult : Prop :=
  ∀ (s : State) (ra rb : Reg),
    (∃ t, exec (.shl (regByte ra) (regByte rb)) s = .next t ∧
      (t.reg ra).toNat = ((s.reg ra).toNat * 2 ^ (s.reg rb).toNat) % 256 ∧
      (∀ k < 8, (t.reg ra).getLsbD k =
        (decide ((s.reg rb).toNat ≤ k) && (s.reg ra).getLsbD (k - (s.reg rb).toNat))) ∧
      t = { s.setReg ra (t.reg ra) with pc := s.pc + 3 }) ∧
    (∃ t, exec (.shr (regByte ra) (regByte rb)) s = .next t ∧
      (t.reg ra).toNat = (s.reg ra).toNat / 2 ^ (s.reg rb).toNat ∧
      (∀ k < 8, (t.reg ra).getLsbD k = (s.reg ra).getLsbD (k + (s.reg rb).toNat)) ∧
      t = { s.setReg ra (t.reg ra) with pc := s.pc + 3 })

/-- R110: MOD with a divisor that is not 0 leaves the unsigned remainder (unsigned by the spec's decision D8, log
8); only register `a` and `pc` change. -/
def Obligations.ModResult : Prop :=
  ∀ (s : State) (ra rb : Reg), s.reg rb ≠ 0#8 →
    ∃ t, exec (.mod (regByte ra) (regByte rb)) s = .next t ∧
      (t.reg ra).toNat < (s.reg rb).toNat ∧
      (∃ q, (s.reg ra).toNat = q * (s.reg rb).toNat + (t.reg ra).toNat) ∧
      t = { s.setReg ra (t.reg ra) with pc := s.pc + 3 }

/-- R110, R173: MOD with divisor 0 faults and writes no register. -/
def Obligations.ModByZeroFaults : Prop :=
  ∀ (s : State) (ra rb : Reg), s.reg rb = 0#8 →
    exec (.mod (regByte ra) (regByte rb)) s = .next { s with run := .faulted .moduloByZero }

/-- R103: CMP ORs exactly one of GreaterThan, Equal, LessThan into `fl`, by the unsigned order (the spec's decision
D8, log 8), and changes nothing else but `pc`. -/
def Obligations.CmpResult : Prop :=
  ∀ (s : State) (ra rb : Reg),
    ∃ t, exec (.cmp (regByte ra) (regByte rb)) s = .next t ∧
      (t.fl.getLsbD 0 = (s.fl.getLsbD 0 || decide ((s.reg rb).toNat < (s.reg ra).toNat))) ∧
      (t.fl.getLsbD 1 = (s.fl.getLsbD 1 || decide ((s.reg ra).toNat = (s.reg rb).toNat))) ∧
      (t.fl.getLsbD 2 = (s.fl.getLsbD 2 || decide ((s.reg ra).toNat < (s.reg rb).toNat))) ∧
      (∀ k, 3 ≤ k → t.fl.getLsbD k = s.fl.getLsbD k) ∧
      t = { s with fl := t.fl, pc := s.pc + 3 }

/-! Immediates, store, output. -/

/-- R120: LDI, encoded 82 a imm, writes the immediate to register `a` and advances by 3; nothing else changes. -/
def Obligations.LdiResult : Prop :=
  ∀ (s : State) (r : Reg) (imm : Byte),
    encode (.ldi (regByte r) imm) = [0x82#8, regByte r, imm] ∧
    ∃ t, exec (.ldi (regByte r) imm) s = .next t ∧ t.reg r = imm ∧
      (∀ q, q ≠ r → t.reg q = s.reg q) ∧
      t = { s with regs := t.regs, pc := s.pc + 3 }

/-- R121: ADDI, encoded 88 a imm, adds the unsigned immediate modulo 256 and advances by 3; nothing else
changes. -/
def Obligations.AddiResult : Prop :=
  ∀ (s : State) (r : Reg) (imm : Byte),
    encode (.addi (regByte r) imm) = [0x88#8, regByte r, imm] ∧
    ∃ t, exec (.addi (regByte r) imm) s = .next t ∧
      (t.reg r).toNat = ((s.reg r).toNat + imm.toNat) % 256 ∧
      (∀ q, q ≠ r → t.reg q = s.reg q) ∧
      t = { s with regs := t.regs, pc := s.pc + 3 }

/-- R122: ST, encoded 84 a b, stores register `b` at the address in register `a`; neither register changes, every
other byte of memory reads as before, and `pc` advances by 3. -/
def Obligations.StResult : Prop :=
  ∀ (s : State) (ra rb : Reg),
    encode (.st (regByte ra) (regByte rb)) = [0x84#8, regByte ra, regByte rb] ∧
    ∃ t, exec (.st (regByte ra) (regByte rb)) s = .next t ∧
      t.mem.get (s.reg ra).toNat = s.reg rb ∧
      (∀ k, k ≠ (s.reg ra).toNat → t.mem.get k = s.mem.get k) ∧
      t = { s with mem := t.mem, pc := s.pc + 3 }

/-- R130, R131: PRN appends the value to the print stream (a stream of its own by the spec's decision D15, log
15), PRA the code point to the HintBuffer (D22, log 21); `pc` advances by 2 and nothing else changes. -/
def Obligations.PrnPraResult : Prop :=
  ∀ (s : State) (r : Reg),
    exec (.prn (regByte r)) s = .next { s with prn := s.prn ++ [s.reg r], pc := s.pc + 2 } ∧
    exec (.pra (regByte r)) s = .next { s with hint := s.hint ++ [s.reg r], pc := s.pc + 2 }

/-- R120, R130: LDI then PRN of the same register appends exactly the immediate to the print stream (a stream of its
own, which leaves the HintBuffer alone: the spec's decision D15, log 15). -/
def Obligations.LdiThenPrnPrintsImmediate : Prop :=
  ∀ (s t : State) (r : Reg) (imm : Byte), exec (.ldi (regByte r) imm) s = .next t →
    ∃ u, exec (.prn (regByte r)) t = .next u ∧ u.prn = s.prn ++ [imm] ∧ u.hint = s.hint ∧ u.pc = s.pc + 5

/-! Stack and control transfer. -/

/-- R140, R142: PUSH with SP not 0 decrements SP and stores the register's value (for R7 the old one, the spec's
decision D10, log 10) there; every other byte reads as before. -/
def Obligations.PushResult : Prop :=
  ∀ (s : State) (r : Reg), s.reg 7 ≠ 0#8 →
    ∃ t, exec (.push (regByte r)) s = .next t ∧
      (t.reg 7).toNat = (s.reg 7).toNat - 1 ∧
      t.mem.get ((s.reg 7).toNat - 1) = s.reg r ∧
      (∀ k, k ≠ (s.reg 7).toNat - 1 → t.mem.get k = s.mem.get k) ∧
      t = { s.setReg 7 (t.reg 7) with mem := t.mem, pc := s.pc + 2 }

/-- R141, R143: POP with SP not 255 increments SP, then writes the byte read at the old SP to the register (for R7
the popped byte wins, the spec's decision D10, log 10). -/
def Obligations.PopResult : Prop :=
  ∀ (s : State) (r : Reg), s.reg 7 ≠ 255#8 →
    ∃ t, exec (.pop (regByte r)) s = .next t ∧
      t.reg r = s.mem.get (s.reg 7).toNat ∧
      (r ≠ 7 → (t.reg 7).toNat = (s.reg 7).toNat + 1) ∧
      t = { (s.setReg 7 (t.reg 7)).setReg r (t.reg r) with pc := s.pc + 2 }

/-- R144: CALL whose return address fits a byte, with SP not 0, pushes `pc + 2` and jumps to the register's value
(for R7 the old one, the spec's decision D10, log 10). -/
def Obligations.CallResult : Prop :=
  ∀ (s : State) (r : Reg), s.pc + 2 ≤ 255 → s.reg 7 ≠ 0#8 →
    ∃ t, exec (.call (regByte r)) s = .next t ∧
      (t.reg 7).toNat = (s.reg 7).toNat - 1 ∧
      (t.mem.get ((s.reg 7).toNat - 1)).toNat = s.pc + 2 ∧
      (∀ k, k ≠ (s.reg 7).toNat - 1 → t.mem.get k = s.mem.get k) ∧
      t = { s.setReg 7 (t.reg 7) with mem := t.mem, pc := (s.reg r).toNat }

/-- R145: RET with SP not 255 pops the return address into `pc`. -/
def Obligations.RetResult : Prop :=
  ∀ s : State, s.reg 7 ≠ 255#8 →
    ∃ t, exec .ret s = .next t ∧
      (t.reg 7).toNat = (s.reg 7).toNat + 1 ∧
      t = { s.setReg 7 (t.reg 7) with pc := (s.mem.get (s.reg 7).toNat).toNat }

/-- R140, R141, R144: where PUSH, CALL, POP and RET fault instead, with no change but `run` (the spec's decisions
D4 and D5, log 4 and 5). -/
def Obligations.StackFaults : Prop :=
  ∀ (s : State) (r : Reg),
    (s.reg 7 = 0#8 → exec (.push (regByte r)) s = .next { s with run := .faulted .stackPointerOutOfRange }) ∧
    (s.reg 7 = 255#8 → exec (.pop (regByte r)) s = .next { s with run := .faulted .stackPointerOutOfRange }) ∧
    (s.reg 7 = 255#8 → exec .ret s = .next { s with run := .faulted .stackPointerOutOfRange }) ∧
    (255 < s.pc + 2 → exec (.call (regByte r)) s = .next { s with run := .faulted .returnAddressOutOfRange }) ∧
    (s.pc + 2 ≤ 255 → s.reg 7 = 0#8 →
      exec (.call (regByte r)) s = .next { s with run := .faulted .stackPointerOutOfRange })

/-- R140, R141: under the alternative policy `wrap`, a push at SP = 0 writes address 255 and a pop at SP = 255
reads it and leaves SP 0 (log 4). -/
def Obligations.WrapPolicyStack : Prop :=
  ∀ (s : State) (v : Byte),
    (s.reg 7 = 0#8 → ∃ t, pushWith .wrap v s = .ok () t ∧ t.reg 7 = 255#8 ∧
      (∀ k, t.mem.get k = if k = 255 then v else s.mem.get k) ∧
      t = { s.setReg 7 255#8 with mem := t.mem }) ∧
    (s.reg 7 = 255#8 → popWith .wrap s = .ok (s.mem.get 255) (s.setReg 7 0#8))

/-- R146: JMP, encoded 54 a, sets `pc` to the register's value and writes nothing else. -/
def Obligations.JmpResult : Prop :=
  ∀ (s : State) (r : Reg),
    encode (.jmp (regByte r)) = [0x54#8, regByte r] ∧
    exec (.jmp (regByte r)) s = .next { s with pc := (s.reg r).toNat }

/-- R147, R148: JEQ and JNE test bit 1 of `fl` and write `pc` only; not taken they advance by 2 (the spec's
decision D9, log 9). -/
def Obligations.BranchResult : Prop :=
  ∀ (s : State) (r : Reg),
    exec (.jeq (regByte r)) s =
      .next { s with pc := if s.fl.getLsbD 1 then (s.reg r).toNat else s.pc + 2 } ∧
    exec (.jne (regByte r)) s =
      .next { s with pc := if s.fl.getLsbD 1 then s.pc + 2 else (s.reg r).toNat }

/-- R142, R143: PUSH then POP moves a register's value (for PUSH R7 the old SP, the spec's decision D10, log 10), and
SP and every other register are as before. -/
def Obligations.PushThenPopMoves : Prop :=
  ∀ (s : State) (q r : Reg), s.reg 7 ≠ 0#8 → r ≠ 7 →
    ∃ t u, exec (.push (regByte q)) s = .next t ∧ exec (.pop (regByte r)) t = .next u ∧
      u.reg r = s.reg q ∧ u.reg 7 = s.reg 7 ∧ (∀ p, p ≠ r → u.reg p = s.reg p) ∧ u.pc = s.pc + 4

/-- R144, R145: whatever runs between a CALL and its RET, if SP and the byte there are as the CALL left them, RET
goes on at the call site + 2 and SP has its value of before the CALL. -/
def Obligations.CallThenRetReturns : Prop :=
  ∀ (s t u : State) (r : Reg), s.pc + 2 ≤ 255 → s.reg 7 ≠ 0#8 → exec (.call (regByte r)) s = .next t →
    u.reg 7 = t.reg 7 → u.readMem (t.reg 7) = t.readMem (t.reg 7) →
    exec .ret u = .next { u.setReg 7 (s.reg 7) with pc := s.pc + 2 }

/-! System instructions. -/

/-- R160: HLT writes nothing but `run`; that `pc` stays is the spec's decision D18 (log 18). -/
def Obligations.HltResult : Prop :=
  ∀ s : State, exec .hlt s = .next { s with run := .halted }

/-- R161: IRET with SP at most 246 loads `x[6]` down to `x[0]`, `fl` (all 8 bits, the spec's decision D16, log
16) and `pc` from the nine bytes at SP, adds 9 to SP and changes nothing else. -/
def Obligations.IretResult : Prop :=
  ∀ s : State, (s.reg 7).toNat ≤ 246 →
    ∃ t, exec .iret s = .next t ∧
      (∀ r : Reg, r ≠ 7 → t.reg r = s.mem.get ((s.reg 7).toNat + (6 - r.val))) ∧
      (t.reg 7).toNat = (s.reg 7).toNat + 9 ∧
      t.fl = s.mem.get ((s.reg 7).toNat + 7) ∧
      t.pc = (s.mem.get ((s.reg 7).toNat + 8)).toNat ∧
      t = { s with regs := t.regs, fl := t.fl, pc := t.pc }

/-- R161, R174: IRET with SP 247 or more faults (the policy `fault`, the spec's decision D4, log 4); memory and the
outputs are unchanged. Of the registers nothing is said (log 19). -/
def Obligations.IretStackFault : Prop :=
  ∀ s : State, 247 ≤ (s.reg 7).toNat →
    ∃ t, exec .iret s = .next t ∧ t.run = .faulted .stackPointerOutOfRange ∧
      t.mem = s.mem ∧ t.hint = s.hint ∧ t.prn = s.prn

/-! Interrupts. -/

/-- R178, R94: the interrupt chosen is the least one both enabled and pending, and there is none exactly when
`x[5] & x[6]` is 0. -/
def Obligations.LowestEnabledPendingWins : Prop :=
  ∀ s : State,
    (∀ i : Fin 8, pendingInterrupt s = some i ↔
      (s.reg 5).getLsbD i = true ∧ (s.reg 6).getLsbD i = true ∧
      ∀ j < i, ¬((s.reg 5).getLsbD j = true ∧ (s.reg 6).getLsbD j = true)) ∧
    (pendingInterrupt s = none ↔ s.reg 5 &&& s.reg 6 = 0#8)

/-- R93, R177, R182, R183: a tick requests interrupt 0 alone: it is chosen if bit 0 of the mask is set, whatever
status bits software had set; if bit 0 is clear none is, and register 6 stays 1 (the spec's decision D25, log 22). -/
def Obligations.TickRequestsInterruptZero : Prop :=
  ∀ s : State, s.tick = true →
    ((s.reg 5).getLsbD 0 = true → pendingInterrupt (timerCheck s) = some 0) ∧
    ((s.reg 5).getLsbD 0 = false →
      pendingInterrupt (timerCheck s) = none ∧ (timerCheck s).reg 6 = 1#8)

/-- R94, R172, R188: a cycle with an enabled pending interrupt performs the entry and ends (the spec's decision
D14, log 14), whatever the bytes at `pc` are. -/
def Obligations.ServiceReplacesFetch : Prop :=
  ∀ (s : State) (i : Fin 8), s.run = .running → s.pc ≤ 255 → pendingInterrupt (timerCheck s) = some i →
    step s = .next (interruptEntry i (timerCheck s)).final

/-- R184: if an instruction, whichever it is, leaves an enabled bit set in register 6, the next cycle, if no tick
overwrites the status and `pc` is in range, enters the lowest interrupt both enabled and set before anything is
fetched, and ends (the spec's decision D14, log 14); so after LDI R6, v with an enabled bit in v. -/
def Obligations.SoftwareRaisedInterrupt : Prop :=
  (∀ (i : Instr) (s t : State), exec i s = .next t → t.run = .running → t.pc ≤ 255 → t.tick = false →
    t.reg 5 &&& t.reg 6 ≠ 0#8 →
    ∃ n : Fin 8, (t.reg 5).getLsbD n = true ∧ (t.reg 6).getLsbD n = true ∧
      (∀ j < n, ¬((t.reg 5).getLsbD j = true ∧ (t.reg 6).getLsbD j = true)) ∧
      step t = .next (interruptEntry n (timerCheck t)).final) ∧
  (∀ (s t : State) (v : Byte), exec (.ldi (regByte 6) v) s = .next t → s.run = .running → s.pc + 3 ≤ 255 →
    t.tick = false → s.reg 5 &&& v ≠ 0#8 →
    ∃ n : Fin 8, (s.reg 5).getLsbD n = true ∧ v.getLsbD n = true ∧
      (∀ j < n, ¬((s.reg 5).getLsbD j = true ∧ v.getLsbD j = true)) ∧
      step t = .next (interruptEntry n (timerCheck t)).final)

/-- R179 to R182: interrupt entry with 9 bytes of stack clears register 6 whole, leaves the frame of R180, lowers
SP by 9, jumps through the vector as it reads after the first two pushes, and changes nothing else. The push
order is that of conflict C1 (log 23). -/
def Obligations.InterruptEntryFrame : Prop :=
  ∀ (i : Fin 8) (s : State), s.pc ≤ 255 → 9 ≤ (s.reg 7).toNat →
    ∃ t, interruptEntry i s = .ok () t ∧
      (t.mem.get ((s.reg 7).toNat - 1)).toNat = s.pc ∧
      t.mem.get ((s.reg 7).toNat - 2) = s.fl ∧
      (∀ r : Reg, r.val < 6 → t.mem.get ((s.reg 7).toNat - 3 - r.val) = s.reg r) ∧
      t.mem.get ((s.reg 7).toNat - 9) = 0#8 ∧
      (∀ k, k < (s.reg 7).toNat - 9 ∨ (s.reg 7).toNat ≤ k → t.mem.get k = s.mem.get k) ∧
      (∀ r : Reg, r.val < 6 → t.reg r = s.reg r) ∧
      t.reg 6 = 0#8 ∧
      (t.reg 7).toNat = (s.reg 7).toNat - 9 ∧
      t.pc = (if 248 + i.val = (s.reg 7).toNat - 1 then s.pc
        else if 248 + i.val = (s.reg 7).toNat - 2 then s.fl.toNat
        else (s.mem.get (248 + i.val)).toNat) ∧
      t = { s with mem := t.mem, regs := t.regs, pc := t.pc }

/-- R174, R179: interrupt entry with fewer than 9 bytes of stack faults (the policy `fault`, the spec's decision D4,
log 4), and the outputs are unchanged. Of the registers and memory nothing is said (log 19). -/
def Obligations.InterruptEntryStackFault : Prop :=
  ∀ (i : Fin 8) (s : State), (s.reg 7).toNat < 9 →
    ∃ t, interruptEntry i s = .raised t ∧ t.run = .faulted .stackPointerOutOfRange ∧
      t.hint = s.hint ∧ t.prn = s.prn

/-- R186: whatever a handler does, if SP and the nine bytes of the frame are as entry left them, IRET restores
registers 0 to 5, `fl` (all 8 bits, the spec's decision D16, log 16), `pc` and SP to their values before the interrupt
and leaves register 6 at 0. -/
def Obligations.IretUndoesInterruptEntry : Prop :=
  ∀ (i : Fin 8) (s t u : State), s.pc ≤ 255 → 9 ≤ (s.reg 7).toNat → interruptEntry i s = .ok () t →
    u.reg 7 = t.reg 7 →
    (∀ k, (s.reg 7).toNat - 9 ≤ k → k < (s.reg 7).toNat → u.mem.get k = t.mem.get k) →
    ∃ v, exec .iret u = .next v ∧
      (∀ r : Reg, r ≠ 6 → v.reg r = s.reg r) ∧ v.reg 6 = 0#8 ∧ v.fl = s.fl ∧ v.pc = s.pc ∧
      v.mem = u.mem ∧ v.hint = u.hint ∧ v.prn = u.prn ∧ v.run = u.run

/-! Rules of the whole machine. -/

/-- R31: CMP and IRET are the only instructions that write `fl`; JEQ and JNE, which read bit 1 only, are the only
ones whose effect depends on it. -/
def Obligations.FlagWritersAndReaders : Prop :=
  ∀ (i : Instr) (s : State) (f : Byte), (∀ a b, i ≠ .cmp a b) → i ≠ .iret →
    ((∃ a, i = .jeq a ∨ i = .jne a) → f.getLsbD 1 = s.fl.getLsbD 1) →
    ∃ t, exec i s = .next t ∧ t.fl = s.fl ∧ exec i { s with fl := f } = .next { t with fl := f }

/-- R30, R204: no cycle clears a flag bit, except one that runs IRET. -/
def Obligations.OnlyIretClearsFlags : Prop :=
  ∀ (s t : State) (k : Nat), step s = .next t → (∀ u, ¬Runs s .iret u) →
    s.fl.getLsbD k = true → t.fl.getLsbD k = true

/-- R10, R33, R132: every cycle answers a next state (log 18, 19); the outputs only grow at their end, and what a cycle does
and appends does not depend on what the outputs hold. -/
def Obligations.OutputsOnlyGrowAndAreNotRead : Prop :=
  ∀ (s : State) (h p : List Byte),
    ∃ t dh dp, step s = .next t ∧ t.hint = s.hint ++ dh ∧ t.prn = s.prn ++ dp ∧
      step { s with hint := h, prn := p } = .next { t with hint := h ++ dh, prn := p ++ dp }

/-- R32: a running machine halts only by fetching HLT, and then nothing else has changed (but for the timer check);
that `pc` too stays is the spec's decision D18 (log 18). -/
def Obligations.HaltsOnlyByHlt : Prop :=
  ∀ s t : State, s.run = .running → step s = .next t → t.run = .halted →
    s.mem.get s.pc = 0x01#8 ∧ t = { timerCheck s with run := .halted }

/-- R174: a faulting cycle that neither runs IRET nor enters an interrupt changes only `run`, after the timer
check if the cause is not `PcOutOfRange` (the spec's decision D19, log 19). -/
def Obligations.FaultChangesOnlyRun : Prop :=
  ∀ (s t : State) (c : FatalCause), s.run = .running → step s = .next t → t.run = .faulted c →
    (∀ u, ¬Runs s .iret u) → (s.pc ≤ 255 → pendingInterrupt (timerCheck s) = none) →
    t = { (if c = .pcOutOfRange then s else timerCheck s) with run := .faulted c }

/-- R27, R43, R51: every cycle keeps the invariant: memory stays in canonical form and `pc` stays 0 to 256. -/
def Obligations.StepKeepsInvariant : Prop :=
  ∀ s t : State, s.Inv → step s = .next t → t.Inv

/-- R27, R40, R43: the invariant holds of the state after reset. -/
def Obligations.ResetMeetsInvariant : Prop :=
  State.reset.Inv

/-- R40, R200: the state after reset. `pc`, SP, `run` and the empty outputs are the source's; 0 in the other
registers and `fl` is the spec's decision D11 (log 11), 0 in memory D12 (log 12). -/
def Obligations.ResetValues : Prop :=
  State.reset.pc = 0 ∧ State.reset.reg 7 = 244#8 ∧ (∀ r : Reg, r ≠ 7 → State.reset.reg r = 0#8) ∧
    State.reset.fl = 0#8 ∧ State.reset.run = .running ∧ State.reset.hint = [] ∧ State.reset.prn = [] ∧
    ∀ k, State.reset.mem.get k = 0#8

/-- R201: an image of at most 256 bytes stands at addresses 0 upward, 0 beyond it (D12, log 12), everything else
as after reset; a longer image is a failed load. -/
def Obligations.LoadPlacesImage : Prop :=
  ∀ image : List Byte,
    (image.length ≤ 256 → ∃ s, State.load image = some s ∧ (∀ k, s.mem.get k = image.getD k 0#8) ∧ s.Inv ∧
      s = { State.reset with mem := s.mem }) ∧
    (256 < image.length → State.load image = none)

/-- R81, R201: a file whose lines each hold the literal of a byte between blanks, and perhaps a comment, loads the
image of those bytes, or fails if they are more than 256 (the spec's decision D12, log 12); a line with nothing
before its comment but blanks changes nothing; a file with a line that is neither is a failed load. Which characters
are blank, also before a literal, and that a bad line is reported before a long image, is the model's choice
(log 31). -/
def Obligations.ProgramTextPlacesLiterals : Prop :=
  (∀ lines : List (List Char × Byte × List Char),
    (∀ l ∈ lines, (∀ c ∈ l.1, isBlank c = true) ∧ ∀ c ∈ l.2.2.takeWhile (· != '#'), isBlank c = true) →
    (lines.length ≤ 256 → ∃ s, State.load (lines.map fun l => l.2.1) = some s ∧
      State.loadText (lines.map fun l => l.1 ++ byteLiteral l.2.1 ++ l.2.2) = .ok s) ∧
    (256 < lines.length →
      State.loadText (lines.map fun l => l.1 ++ byteLiteral l.2.1 ++ l.2.2) = .error .imageTooLong)) ∧
  (∀ (before after : List (List Char)) (line : List Char),
    (∀ c ∈ line.takeWhile (· != '#'), isBlank c = true) →
    State.loadText (before ++ line :: after) = State.loadText (before ++ after)) ∧
  (∀ (before after : List (List Char)) (line : List Char),
    (∃ c ∈ line.takeWhile (· != '#'), isBlank c = false) →
    (∀ (b : Byte) (pre post : List Char), (∀ c ∈ pre, isBlank c = true) → (∀ c ∈ post, isBlank c = true) →
      line.takeWhile (· != '#') ≠ pre ++ byteLiteral b ++ post) →
    State.loadText (before ++ line :: after) = .error .badLine)

/-- R63, R122: whatever byte ST stores where the next cycle fetches, that cycle decodes it, with the two bytes after
it as they were before, and runs the instruction or raises the rejection's cause (an operand beyond memory: the
spec's decision D3, log 3). -/
def Obligations.StoreIsSeenByNextFetch : Prop :=
  ∀ (s t : State) (ra rb : Reg), exec (.st (regByte ra) (regByte rb)) s = .next t →
    s.run = .running → (s.reg ra).toNat = s.pc + 3 → pendingInterrupt (timerCheck t) = none →
    step t =
      match decode (s.reg rb :: s.mem.bytesFrom (s.pc + 4) 2) with
      | .ok (i, _) => exec i (timerCheck t)
      | .error e => .next { timerCheck t with run := .faulted (rejectCause e) }

/-- R171, R172: the diagnostic carries the opcode byte and `pc` for an unrecognized opcode, and the first bad
register byte and `pc` for an invalid register index (D6, log 6). The ALU opcodes are PRESUMED (log 1). -/
def Obligations.DiagnosticRecords : Prop :=
  ∀ s : State, s.run = .running → s.pc ≤ 255 → pendingInterrupt (timerCheck s) = none →
    (s.mem.get s.pc ∉ recognizedOpcodes → ∃ t, step s = .next t ∧
      t.diagnostic = some ⟨.unrecognizedOpcode, some (s.mem.get s.pc), some s.pc, none⟩) ∧
    (∀ i rest, decode (s.mem.bytesFrom s.pc 3) = .ok (i, rest) → i.wellFormed = false →
      ∃ t b, step s = .next t ∧ i.regOperands.find? (fun x => decide (8 ≤ x.toNat)) = some b ∧
        t.diagnostic = some ⟨.invalidRegisterIndex, some b, some s.pc, none⟩)

/-! Frames: what an instruction leaves unchanged on every path that gives a next state, a fault included; the
program counter may change. -/

/-- R89, R100: LDI, ADDI and the ALU instructions but CMP write no register but `a`, no flag, no memory and no
output. -/
def Obligations.FrameOfRegisterWriters : Prop :=
  ∀ (i : Instr) (a b : Byte) (s t : State),
    i ∈ [Instr.ldi a b, .addi a b, .add a b, .mul a b, .mod a b, .and a b, .not a, .or a b, .xor a b,
      .shl a b, .shr a b] →
    exec i s = .next t →
    (∀ r, regByte r ≠ a → t.reg r = s.reg r) ∧ t.fl = s.fl ∧ (∀ k, t.mem.get k = s.mem.get k) ∧
      t.hint = s.hint ∧ t.prn = s.prn ∧ t.ticks = s.ticks ∧ t.cycle = s.cycle ∧
      (t.run = s.run ∨ ∃ c, t.run = .faulted c)

/-- R89: CMP, PRN, PRA, JMP, JEQ, JNE and HLT write no register and no memory; only CMP writes `fl` (bits 0 to 2),
only PRA `hint`, only PRN `prn`, and only HLT makes `run` HALTED. -/
def Obligations.FrameOfCompareOutputJumpHalt : Prop :=
  ∀ (i : Instr) (a b : Byte) (s t : State),
    i ∈ [Instr.cmp a b, .prn a, .pra a, .jmp a, .jeq a, .jne a, .hlt] →
    exec i s = .next t →
    (∀ r, t.reg r = s.reg r) ∧ (∀ k, t.mem.get k = s.mem.get k) ∧
      (i ≠ .cmp a b → t.fl = s.fl) ∧ (∀ k, 3 ≤ k → t.fl.getLsbD k = s.fl.getLsbD k) ∧
      (i ≠ .pra a → t.hint = s.hint) ∧ (i ≠ .prn a → t.prn = s.prn) ∧
      t.ticks = s.ticks ∧ t.cycle = s.cycle ∧
      (i ≠ .hlt → t.run = s.run ∨ ∃ c, t.run = .faulted c)

/-- R89, R122, R142, R144: ST writes no register and no byte but the one at its store address; PUSH and CALL write
no register but SP and no byte but the one at their push address; none writes a flag or an output. -/
def Obligations.FrameOfStores : Prop :=
  ∀ (a b : Byte) (s t : State),
    (exec (.st a b) s = .next t →
      (∀ r, t.reg r = s.reg r) ∧
      (∀ ra k, regOf a = some ra → k ≠ (storeAddress s ra).toNat → t.mem.get k = s.mem.get k) ∧
      (regOf a = none → ∀ k, t.mem.get k = s.mem.get k) ∧
      t.fl = s.fl ∧ t.hint = s.hint ∧ t.prn = s.prn ∧ t.ticks = s.ticks ∧ t.cycle = s.cycle ∧
      (t.run = s.run ∨ ∃ c, t.run = .faulted c)) ∧
    (∀ i ∈ [Instr.push a, .call a], exec i s = .next t →
      (∀ r, r ≠ 7 → t.reg r = s.reg r) ∧
      (∀ k, k ≠ (pushAddress s).toNat → t.mem.get k = s.mem.get k) ∧
      t.fl = s.fl ∧ t.hint = s.hint ∧ t.prn = s.prn ∧ t.ticks = s.ticks ∧ t.cycle = s.cycle ∧
      (t.run = s.run ∨ ∃ c, t.run = .faulted c))

/-- R89, R143, R145: POP writes no register but SP and `a`, RET none but SP; neither writes memory, a flag or an
output. -/
def Obligations.FrameOfPopAndRet : Prop :=
  ∀ (i : Instr) (a : Byte) (s t : State), i ∈ [Instr.pop a, .ret] → exec i s = .next t →
    (∀ r, r ≠ 7 → regByte r ≠ a → t.reg r = s.reg r) ∧ (i = .ret → ∀ r, r ≠ 7 → t.reg r = s.reg r) ∧
      (∀ k, t.mem.get k = s.mem.get k) ∧ t.fl = s.fl ∧ t.hint = s.hint ∧ t.prn = s.prn ∧
      t.ticks = s.ticks ∧ t.cycle = s.cycle ∧ (t.run = s.run ∨ ∃ c, t.run = .faulted c)

/-- R89, R161: IRET writes registers, `fl` and `pc`, and neither memory nor an output. -/
def Obligations.FrameOfIret : Prop :=
  ∀ s t : State, exec .iret s = .next t →
    (∀ k, t.mem.get k = s.mem.get k) ∧ t.hint = s.hint ∧ t.prn = s.prn ∧ t.ticks = s.ticks ∧
      t.cycle = s.cycle ∧ (t.run = s.run ∨ ∃ c, t.run = .faulted c)
end

