-- ==== Sys2Proof/Laws/State.lean ====
section
/-! SUPPORT. What each named update of the state does to each field (one lemma per field and update), and the
read-after-write laws of registers. -/

namespace Sys2Proof.Machine

variable (s : State)

/-! `State.setReg`. -/

@[simp] theorem setReg_mem (r : Reg) (v : Byte) : (s.setReg r v).mem = s.mem := rfl
@[simp] theorem setReg_regs (r : Reg) (v : Byte) : (s.setReg r v).regs = s.regs.set r.val v := rfl
@[simp] theorem setReg_pc (r : Reg) (v : Byte) : (s.setReg r v).pc = s.pc := rfl
@[simp] theorem setReg_fl (r : Reg) (v : Byte) : (s.setReg r v).fl = s.fl := rfl
@[simp] theorem setReg_run (r : Reg) (v : Byte) : (s.setReg r v).run = s.run := rfl
@[simp] theorem setReg_hint (r : Reg) (v : Byte) : (s.setReg r v).hint = s.hint := rfl
@[simp] theorem setReg_prn (r : Reg) (v : Byte) : (s.setReg r v).prn = s.prn := rfl
@[simp] theorem setReg_ticks (r : Reg) (v : Byte) : (s.setReg r v).ticks = s.ticks := rfl
@[simp] theorem setReg_cycle (r : Reg) (v : Byte) : (s.setReg r v).cycle = s.cycle := rfl
@[simp] theorem setReg_readMem (r : Reg) (v : Byte) (k : Byte) : (s.setReg r v).readMem k = s.readMem k := rfl

/-! `State.setPc`. -/

@[simp] theorem setPc_mem (t : Nat) : (s.setPc t).mem = s.mem := rfl
@[simp] theorem setPc_regs (t : Nat) : (s.setPc t).regs = s.regs := rfl
@[simp] theorem setPc_pc (t : Nat) : (s.setPc t).pc = t := rfl
@[simp] theorem setPc_fl (t : Nat) : (s.setPc t).fl = s.fl := rfl
@[simp] theorem setPc_run (t : Nat) : (s.setPc t).run = s.run := rfl
@[simp] theorem setPc_hint (t : Nat) : (s.setPc t).hint = s.hint := rfl
@[simp] theorem setPc_prn (t : Nat) : (s.setPc t).prn = s.prn := rfl
@[simp] theorem setPc_ticks (t : Nat) : (s.setPc t).ticks = s.ticks := rfl
@[simp] theorem setPc_cycle (t : Nat) : (s.setPc t).cycle = s.cycle := rfl
@[simp] theorem setPc_reg (t : Nat) (q : Reg) : (s.setPc t).reg q = s.reg q := rfl
@[simp] theorem setPc_readMem (t : Nat) (k : Byte) : (s.setPc t).readMem k = s.readMem k := rfl

/-! `State.advance`. -/

@[simp] theorem advance_mem (w : Nat) : (s.advance w).mem = s.mem := rfl
@[simp] theorem advance_regs (w : Nat) : (s.advance w).regs = s.regs := rfl
@[simp] theorem advance_pc (w : Nat) : (s.advance w).pc = s.pc + w := rfl
@[simp] theorem advance_fl (w : Nat) : (s.advance w).fl = s.fl := rfl
@[simp] theorem advance_run (w : Nat) : (s.advance w).run = s.run := rfl
@[simp] theorem advance_hint (w : Nat) : (s.advance w).hint = s.hint := rfl
@[simp] theorem advance_prn (w : Nat) : (s.advance w).prn = s.prn := rfl
@[simp] theorem advance_ticks (w : Nat) : (s.advance w).ticks = s.ticks := rfl
@[simp] theorem advance_cycle (w : Nat) : (s.advance w).cycle = s.cycle := rfl
@[simp] theorem advance_reg (w : Nat) (q : Reg) : (s.advance w).reg q = s.reg q := rfl
@[simp] theorem advance_readMem (w : Nat) (k : Byte) : (s.advance w).readMem k = s.readMem k := rfl

/-! `State.setFl`. -/

@[simp] theorem setFl_mem (v : Byte) : (s.setFl v).mem = s.mem := rfl
@[simp] theorem setFl_regs (v : Byte) : (s.setFl v).regs = s.regs := rfl
@[simp] theorem setFl_pc (v : Byte) : (s.setFl v).pc = s.pc := rfl
@[simp] theorem setFl_fl (v : Byte) : (s.setFl v).fl = v := rfl
@[simp] theorem setFl_run (v : Byte) : (s.setFl v).run = s.run := rfl
@[simp] theorem setFl_hint (v : Byte) : (s.setFl v).hint = s.hint := rfl
@[simp] theorem setFl_prn (v : Byte) : (s.setFl v).prn = s.prn := rfl
@[simp] theorem setFl_ticks (v : Byte) : (s.setFl v).ticks = s.ticks := rfl
@[simp] theorem setFl_cycle (v : Byte) : (s.setFl v).cycle = s.cycle := rfl
@[simp] theorem setFl_reg (v : Byte) (q : Reg) : (s.setFl v).reg q = s.reg q := rfl
@[simp] theorem setFl_readMem (v : Byte) (k : Byte) : (s.setFl v).readMem k = s.readMem k := rfl

/-! `State.orFlag`. -/

@[simp] theorem orFlag_mem (f : Byte) : (s.orFlag f).mem = s.mem := rfl
@[simp] theorem orFlag_regs (f : Byte) : (s.orFlag f).regs = s.regs := rfl
@[simp] theorem orFlag_pc (f : Byte) : (s.orFlag f).pc = s.pc := rfl
@[simp] theorem orFlag_fl (f : Byte) : (s.orFlag f).fl = s.fl ||| f := rfl
@[simp] theorem orFlag_run (f : Byte) : (s.orFlag f).run = s.run := rfl
@[simp] theorem orFlag_hint (f : Byte) : (s.orFlag f).hint = s.hint := rfl
@[simp] theorem orFlag_prn (f : Byte) : (s.orFlag f).prn = s.prn := rfl
@[simp] theorem orFlag_ticks (f : Byte) : (s.orFlag f).ticks = s.ticks := rfl
@[simp] theorem orFlag_cycle (f : Byte) : (s.orFlag f).cycle = s.cycle := rfl
@[simp] theorem orFlag_reg (f : Byte) (q : Reg) : (s.orFlag f).reg q = s.reg q := rfl
@[simp] theorem orFlag_readMem (f : Byte) (k : Byte) : (s.orFlag f).readMem k = s.readMem k := rfl

/-! `State.setRun`. -/

@[simp] theorem setRun_mem (r : RunState) : (s.setRun r).mem = s.mem := rfl
@[simp] theorem setRun_regs (r : RunState) : (s.setRun r).regs = s.regs := rfl
@[simp] theorem setRun_pc (r : RunState) : (s.setRun r).pc = s.pc := rfl
@[simp] theorem setRun_fl (r : RunState) : (s.setRun r).fl = s.fl := rfl
@[simp] theorem setRun_run (r : RunState) : (s.setRun r).run = r := rfl
@[simp] theorem setRun_hint (r : RunState) : (s.setRun r).hint = s.hint := rfl
@[simp] theorem setRun_prn (r : RunState) : (s.setRun r).prn = s.prn := rfl
@[simp] theorem setRun_ticks (r : RunState) : (s.setRun r).ticks = s.ticks := rfl
@[simp] theorem setRun_cycle (r : RunState) : (s.setRun r).cycle = s.cycle := rfl
@[simp] theorem setRun_reg (r : RunState) (q : Reg) : (s.setRun r).reg q = s.reg q := rfl
@[simp] theorem setRun_readMem (r : RunState) (k : Byte) : (s.setRun r).readMem k = s.readMem k := rfl

/-! `State.raise`. -/

@[simp] theorem raise_mem (c : FatalCause) : (s.raise c).mem = s.mem := rfl
@[simp] theorem raise_regs (c : FatalCause) : (s.raise c).regs = s.regs := rfl
@[simp] theorem raise_pc (c : FatalCause) : (s.raise c).pc = s.pc := rfl
@[simp] theorem raise_fl (c : FatalCause) : (s.raise c).fl = s.fl := rfl
@[simp] theorem raise_run (c : FatalCause) : (s.raise c).run = .faulted c := rfl
@[simp] theorem raise_hint (c : FatalCause) : (s.raise c).hint = s.hint := rfl
@[simp] theorem raise_prn (c : FatalCause) : (s.raise c).prn = s.prn := rfl
@[simp] theorem raise_ticks (c : FatalCause) : (s.raise c).ticks = s.ticks := rfl
@[simp] theorem raise_cycle (c : FatalCause) : (s.raise c).cycle = s.cycle := rfl
@[simp] theorem raise_reg (c : FatalCause) (q : Reg) : (s.raise c).reg q = s.reg q := rfl
@[simp] theorem raise_readMem (c : FatalCause) (k : Byte) : (s.raise c).readMem k = s.readMem k := rfl

/-! `State.appendHint`. -/

@[simp] theorem appendHint_mem (v : Byte) : (s.appendHint v).mem = s.mem := rfl
@[simp] theorem appendHint_regs (v : Byte) : (s.appendHint v).regs = s.regs := rfl
@[simp] theorem appendHint_pc (v : Byte) : (s.appendHint v).pc = s.pc := rfl
@[simp] theorem appendHint_fl (v : Byte) : (s.appendHint v).fl = s.fl := rfl
@[simp] theorem appendHint_run (v : Byte) : (s.appendHint v).run = s.run := rfl
@[simp] theorem appendHint_hint (v : Byte) : (s.appendHint v).hint = s.hint ++ [v] := rfl
@[simp] theorem appendHint_prn (v : Byte) : (s.appendHint v).prn = s.prn := rfl
@[simp] theorem appendHint_ticks (v : Byte) : (s.appendHint v).ticks = s.ticks := rfl
@[simp] theorem appendHint_cycle (v : Byte) : (s.appendHint v).cycle = s.cycle := rfl
@[simp] theorem appendHint_reg (v : Byte) (q : Reg) : (s.appendHint v).reg q = s.reg q := rfl
@[simp] theorem appendHint_readMem (v : Byte) (k : Byte) : (s.appendHint v).readMem k = s.readMem k := rfl

/-! `State.appendPrn`. -/

@[simp] theorem appendPrn_mem (v : Byte) : (s.appendPrn v).mem = s.mem := rfl
@[simp] theorem appendPrn_regs (v : Byte) : (s.appendPrn v).regs = s.regs := rfl
@[simp] theorem appendPrn_pc (v : Byte) : (s.appendPrn v).pc = s.pc := rfl
@[simp] theorem appendPrn_fl (v : Byte) : (s.appendPrn v).fl = s.fl := rfl
@[simp] theorem appendPrn_run (v : Byte) : (s.appendPrn v).run = s.run := rfl
@[simp] theorem appendPrn_hint (v : Byte) : (s.appendPrn v).hint = s.hint := rfl
@[simp] theorem appendPrn_prn (v : Byte) : (s.appendPrn v).prn = s.prn ++ [v] := rfl
@[simp] theorem appendPrn_ticks (v : Byte) : (s.appendPrn v).ticks = s.ticks := rfl
@[simp] theorem appendPrn_cycle (v : Byte) : (s.appendPrn v).cycle = s.cycle := rfl
@[simp] theorem appendPrn_reg (v : Byte) (q : Reg) : (s.appendPrn v).reg q = s.reg q := rfl
@[simp] theorem appendPrn_readMem (v : Byte) (k : Byte) : (s.appendPrn v).readMem k = s.readMem k := rfl

/-! `State.writeMem`. -/

@[simp] theorem writeMem_mem (a v : Byte) : (s.writeMem a v).mem = s.mem.set a.toNat v := rfl
@[simp] theorem writeMem_regs (a v : Byte) : (s.writeMem a v).regs = s.regs := rfl
@[simp] theorem writeMem_pc (a v : Byte) : (s.writeMem a v).pc = s.pc := rfl
@[simp] theorem writeMem_fl (a v : Byte) : (s.writeMem a v).fl = s.fl := rfl
@[simp] theorem writeMem_run (a v : Byte) : (s.writeMem a v).run = s.run := rfl
@[simp] theorem writeMem_hint (a v : Byte) : (s.writeMem a v).hint = s.hint := rfl
@[simp] theorem writeMem_prn (a v : Byte) : (s.writeMem a v).prn = s.prn := rfl
@[simp] theorem writeMem_ticks (a v : Byte) : (s.writeMem a v).ticks = s.ticks := rfl
@[simp] theorem writeMem_cycle (a v : Byte) : (s.writeMem a v).cycle = s.cycle := rfl
@[simp] theorem writeMem_reg (a v : Byte) (q : Reg) : (s.writeMem a v).reg q = s.reg q := rfl

/-! `State.sampleTick`. -/

@[simp] theorem sampleTick_mem : (s.sampleTick).mem = s.mem := rfl
@[simp] theorem sampleTick_regs : (s.sampleTick).regs = s.regs := rfl
@[simp] theorem sampleTick_pc : (s.sampleTick).pc = s.pc := rfl
@[simp] theorem sampleTick_fl : (s.sampleTick).fl = s.fl := rfl
@[simp] theorem sampleTick_run : (s.sampleTick).run = s.run := rfl
@[simp] theorem sampleTick_hint : (s.sampleTick).hint = s.hint := rfl
@[simp] theorem sampleTick_prn : (s.sampleTick).prn = s.prn := rfl
@[simp] theorem sampleTick_ticks : (s.sampleTick).ticks = s.ticks.tail := rfl
@[simp] theorem sampleTick_cycle : (s.sampleTick).cycle = s.cycle + 1 := rfl
@[simp] theorem sampleTick_reg (q : Reg) : (s.sampleTick).reg q = s.reg q := rfl
@[simp] theorem sampleTick_readMem (k : Byte) : (s.sampleTick).readMem k = s.readMem k := rfl

/-! Registers (R21: a register reads as what was last written to it). -/

theorem reg_setReg (r q : Reg) (v : Byte) : (s.setReg r v).reg q = if r = q then v else s.reg q := by
  simp only [State.reg, State.setReg, Vector.getElem_set, Fin.ext_iff]

@[simp] theorem reg_setReg_same (r : Reg) (v : Byte) : (s.setReg r v).reg r = v := by
  rw [reg_setReg, if_pos rfl]

theorem reg_setReg_other (r q : Reg) (v : Byte) (h : r ≠ q) : (s.setReg r v).reg q = s.reg q := by
  rw [reg_setReg, if_neg h]

/-- Two states that agree in every field are equal. -/
@[ext] theorem state_ext (s t : State) (mem : s.mem = t.mem) (regs : s.regs = t.regs) (pc : s.pc = t.pc)
    (fl : s.fl = t.fl) (run : s.run = t.run) (hint : s.hint = t.hint) (prn : s.prn = t.prn)
    (ticks : s.ticks = t.ticks) (cycle : s.cycle = t.cycle) : s = t := by
  cases s
  cases t
  simp_all

/-- Two register files that agree on every register are equal. -/
theorem regs_ext (u v : Vector Byte 8) (h : ∀ r : Reg, u[r.val] = v[r.val]) : u = v :=
  Vector.ext fun k hk => h ⟨k, hk⟩

/-- Writing back what a register holds changes nothing. -/
@[simp] theorem setReg_reg (r : Reg) : s.setReg r (s.reg r) = s := by
  simp only [State.setReg, State.reg, Vector.set_getElem_self]

end Sys2Proof.Machine
end

