-- ==== Sys2Proof/Laws/Memory.lean ====
section
/-! SUPPORT. The laws of memory: a read returns the last write, a write leaves every other address alone, and
every memory operation keeps the canonical form (spec/20_memory.md R51, R61). -/

namespace Sys2Proof.Machine

/-! Reads. -/

theorem get_insertCell (c : Host.Cell) (m : Memory) (k : Nat) (h : ∀ d ∈ m, d.1 ≠ c.1) :
    (Memory.insertCell c m).get k = if c.1 = k then c.2 else m.get k := by
  induction m with
  | nil => rfl
  | cons d m ih =>
    have hd : d.1 ≠ c.1 := h d List.mem_cons_self
    have hm : ∀ e ∈ m, e.1 ≠ c.1 := fun e he => h e (List.mem_cons_of_mem d he)
    unfold Memory.insertCell
    split
    · rfl
    · simp only [Memory.get, ih hm]
      by_cases hdk : d.1 = k
      · have hck : c.1 ≠ k := fun e => hd (hdk.trans e.symm)
        simp [hdk, hck]
      · simp [hdk]

theorem get_filter_ne (m : Memory) (k j : Nat) :
    Memory.get (m.filter fun c => decide (c.1 ≠ k)) j = if k = j then unlistedByte else m.get j := by
  induction m with
  | nil => simp [Memory.get]
  | cons d m ih =>
    by_cases hdk : d.1 = k
    · rw [List.filter_cons_of_neg (by simpa using hdk), ih]
      by_cases hkj : k = j
      · simp [hkj]
      · have : d.1 ≠ j := fun e => hkj (hdk.symm.trans e)
        simp [hkj, Memory.get, this]
    · rw [List.filter_cons_of_pos (by simpa using hdk)]
      simp only [Memory.get, ih]
      by_cases hdj : d.1 = j
      · have : k ≠ j := fun e => hdk (hdj.trans e.symm)
        simp [hdj, this]
      · simp [hdj]

/-- The value written is read back, and every other address reads as before (R51). -/
theorem get_set (m : Memory) (k j : Nat) (v : Byte) :
    (m.set k v).get j = if k = j then v else m.get j := by
  unfold Memory.set
  split
  · next hv => rw [get_filter_ne, hv]
  · rw [get_insertCell _ _ _ (by simp), get_filter_ne]
    by_cases hkj : k = j <;> simp [hkj]

@[simp] theorem get_set_same (m : Memory) (k : Nat) (v : Byte) : (m.set k v).get k = v := by
  rw [get_set, if_pos rfl]

theorem get_set_other (m : Memory) (k j : Nat) (v : Byte) (h : k ≠ j) : (m.set k v).get j = m.get j := by
  rw [get_set, if_neg h]

theorem readMem_writeMem (s : State) (a b v : Byte) :
    (s.writeMem a v).readMem b = if a = b then v else s.readMem b := by
  simp only [State.readMem, State.writeMem, get_set, BitVec.toNat_inj]

@[simp] theorem readMem_writeMem_same (s : State) (a v : Byte) : (s.writeMem a v).readMem a = v := by
  rw [readMem_writeMem, if_pos rfl]

theorem get_setBytes (bytes : List Byte) (m : Memory) (k j : Nat) :
    (m.setBytes k bytes).get j =
      if k ≤ j ∧ j < k + bytes.length then bytes.getD (j - k) unlistedByte else m.get j := by
  induction bytes generalizing m k with
  | nil => rw [if_neg (by simp only [List.length_nil]; omega)]; rfl
  | cons v vs ih =>
    rw [Memory.setBytes, ih, List.length_cons]
    by_cases hj : k = j
    · subst hj
      rw [if_neg (by omega), if_pos (by omega), get_set_same, Nat.sub_self]
      rfl
    · by_cases h : k + 1 ≤ j ∧ j < k + 1 + vs.length
      · obtain ⟨d, rfl⟩ := Nat.exists_eq_add_of_le h.1
        rw [if_pos h, if_pos (by omega), show k + 1 + d - (k + 1) = d by omega,
          show k + 1 + d - k = d + 1 by omega]
        rfl
      · rw [if_neg h, if_neg (by omega), get_set_other _ _ _ _ hj]

/-! The canonical form. -/

theorem wf_iff (m : Memory) :
    m.wf = true ↔ m.Pairwise (fun c d => c.1 < d.1) ∧ ∀ c ∈ m, c.1 < memSize ∧ c.2 ≠ unlistedByte := by
  simp [Memory.wf]

theorem mem_insertCell (c d : Host.Cell) (m : Memory) : d ∈ Memory.insertCell c m ↔ d = c ∨ d ∈ m := by
  induction m with
  | nil => simp [Memory.insertCell]
  | cons e m ih =>
    unfold Memory.insertCell
    split
    · exact List.mem_cons
    · rw [List.mem_cons, ih, List.mem_cons]
      exact or_left_comm

theorem pairwise_insertCell (c : Host.Cell) (m : Memory) (hm : m.Pairwise fun c d => c.1 < d.1)
    (hc : ∀ d ∈ m, d.1 ≠ c.1) : (Memory.insertCell c m).Pairwise fun c d => c.1 < d.1 := by
  induction m with
  | nil => simp [Memory.insertCell]
  | cons e m ih =>
    obtain ⟨he, hm⟩ := List.pairwise_cons.mp hm
    have hec : e.1 ≠ c.1 := hc e List.mem_cons_self
    unfold Memory.insertCell
    split
    · next hlt =>
      refine List.pairwise_cons.mpr ⟨fun d hd => ?_, List.pairwise_cons.mpr ⟨he, hm⟩⟩
      rcases List.mem_cons.mp hd with rfl | hd
      · exact hlt
      · exact Nat.lt_trans hlt (he d hd)
    · refine List.pairwise_cons.mpr ⟨fun d hd => ?_, ih hm fun d hd => hc d (List.mem_cons_of_mem e hd)⟩
      rcases (mem_insertCell c d m).mp hd with rfl | hd
      · omega
      · exact he d hd

/-- A write inside the address space keeps the canonical form. -/
theorem set_wf (m : Memory) (k : Nat) (v : Byte) (hk : k < memSize) (hm : m.wf = true) :
    (m.set k v).wf = true := by
  rw [wf_iff] at hm ⊢
  have hp := hm.1.sublist (List.filter_sublist (p := fun c => decide (c.1 ≠ k)))
  have hc : ∀ c ∈ m.filter (fun c => decide (c.1 ≠ k)), c.1 < memSize ∧ c.2 ≠ unlistedByte :=
    fun c h => hm.2 c (List.mem_filter.mp h).1
  unfold Memory.set
  split
  · exact ⟨hp, hc⟩
  · next hv =>
    refine ⟨pairwise_insertCell _ _ hp (by simp), fun c h => ?_⟩
    rcases (mem_insertCell _ _ _).mp h with rfl | h
    · exact ⟨hk, hv⟩
    · exact hc c h

theorem writeMem_wf (s : State) (a v : Byte) (h : s.mem.wf = true) : (s.writeMem a v).mem.wf = true :=
  set_wf s.mem a.toNat v a.isLt h

theorem setBytes_wf (bytes : List Byte) (m : Memory) (k : Nat) (hk : k + bytes.length ≤ memSize)
    (hm : m.wf = true) : (m.setBytes k bytes).wf = true := by
  induction bytes generalizing m k with
  | nil => exact hm
  | cons v vs ih =>
    rw [List.length_cons] at hk
    exact ih _ _ (by omega) (set_wf m k v (by omega) hm)

theorem get_unlisted (m : Memory) (k : Nat) (h : ∀ c ∈ m, c.1 ≠ k) : m.get k = unlistedByte := by
  induction m with
  | nil => rfl
  | cons c m ih =>
    rw [Memory.get, if_neg (h c List.mem_cons_self)]
    exact ih fun d hd => h d (List.mem_cons_of_mem c hd)

/-- The tail of a canonical memory is canonical, and lists no address up to the head's. -/
theorem wf_tail (c : Host.Cell) (m : Memory) (h : Memory.wf (c :: m) = true) :
    m.wf = true ∧ (∀ d ∈ m, c.1 < d.1) ∧ c.2 ≠ unlistedByte := by
  rw [wf_iff] at h
  obtain ⟨hc, hm⟩ := List.pairwise_cons.mp h.1
  exact ⟨(wf_iff m).mpr ⟨hm, fun d hd => h.2 d (List.mem_cons_of_mem c hd)⟩, hc, (h.2 c List.mem_cons_self).2⟩

/-- A canonical memory with a cell reads it, so it is not read-equal to one that lists only higher addresses. -/
theorem get_head_ne (c : Host.Cell) (m n : Memory) (hm : Memory.wf (c :: m) = true) (hn : ∀ d ∈ n, c.1 < d.1) :
    Memory.get (c :: m) c.1 ≠ n.get c.1 := by
  rw [get_unlisted n c.1 fun d hd => Nat.ne_of_gt (hn d hd), Memory.get, if_pos rfl]
  exact (wf_tail c m hm).2.2

/-- In canonical form, memories that read alike are equal data. -/
theorem wf_ext (m n : Memory) (hm : m.wf = true) (hn : n.wf = true) (h : ∀ k, m.get k = n.get k) : m = n := by
  induction m generalizing n with
  | nil =>
    cases n with
    | nil => rfl
    | cons d n => exact absurd (h d.1).symm (get_head_ne d n [] hn nofun)
  | cons c m ih =>
    cases n with
    | nil => exact absurd (h c.1) (get_head_ne c m [] hm nofun)
    | cons d n =>
      obtain ⟨hm', hcm, -⟩ := wf_tail c m hm
      obtain ⟨hn', hdn, -⟩ := wf_tail d n hn
      have below : ∀ (a b : Host.Cell) (l : Memory), a.1 < b.1 → (∀ e ∈ l, b.1 < e.1) → ∀ e ∈ b :: l, a.1 < e.1 := by
        intro a b l hab hl e he
        rcases List.mem_cons.mp he with rfl | he
        · exact hab
        · exact Nat.lt_trans hab (hl e he)
      rcases Nat.lt_trichotomy c.1 d.1 with hlt | heq | hgt
      · exact absurd (h c.1) (get_head_ne c m (d :: n) hm (below c d n hlt hdn))
      · have hv : c.2 = d.2 := by simpa [Memory.get, heq] using h c.1
        have hcd : c = d := Prod.ext heq hv
        subst hcd
        refine congrArg (c :: ·) (ih n hm' hn' fun k => ?_)
        by_cases hk : c.1 = k
        · rw [← hk, get_unlisted m c.1 fun e he => Nat.ne_of_gt (hcm e he),
            get_unlisted n c.1 fun e he => Nat.ne_of_gt (hdn e he)]
        · simpa [Memory.get, hk] using h k
      · exact absurd (h d.1).symm (get_head_ne d n (c :: m) hn (below d c m hgt hcm))

end Sys2Proof.Machine
end

