-- ==== Sys2Proof/Laws/Ops.lean ====
section
/-! SUPPORT. What each shared operation can do, said once: register operands, the stack, sequences that a fatal
error may end, the timer check and the interrupt check. -/

namespace Sys2Proof.Machine

/-! Register operands (R73). -/

@[simp] theorem regOf_regByte (r : Reg) : regOf (regByte r) = some r := by
  revert r; decide

theorem regOf_eq_some (a : Byte) (r : Reg) : regOf a = some r ↔ a = regByte r := by
  revert a r; decide

theorem regOf_eq_none (a : Byte) : regOf a = none ↔ isRegByte a = false := by
  simp [regOf, isRegByte]

@[simp] theorem isRegByte_regByte (r : Reg) : isRegByte (regByte r) = true := by
  revert r; decide

theorem withReg_regByte (r : Reg) (s : State) (k : Reg → Ran Unit) : withReg (regByte r) s k = k r := by
  rw [withReg, regOf_regByte]

theorem withRegs_regByte (q r : Reg) (s : State) (k : Reg → Reg → Ran Unit) :
    withRegs (regByte q) (regByte r) s k = k q r := by
  rw [withRegs, withReg_regByte, withReg_regByte]

theorem withReg_bad (a : Byte) (s : State) (k : Reg → Ran Unit) (h : isRegByte a = false) :
    withReg a s k = .raised (s.raise .invalidRegisterIndex) := by
  rw [withReg, (regOf_eq_none a).mpr h]

/-- A register operand names a register and the instruction goes on with it, or the cycle ends in
`InvalidRegisterIndex` with nothing else changed. -/
theorem withReg_cases (a : Byte) (s : State) (k : Reg → Ran Unit) :
    (∃ r, a = regByte r ∧ withReg a s k = k r) ∨
      (isRegByte a = false ∧ withReg a s k = .raised (s.raise .invalidRegisterIndex)) := by
  cases h : regOf a with
  | some r => exact .inl ⟨r, (regOf_eq_some a r).mp h, by rw [withReg, h]⟩
  | none =>
    have hb := (regOf_eq_none a).mp h
    exact .inr ⟨hb, withReg_bad a s k hb⟩

/-- The same for two register operands. -/
theorem withRegs_cases (a b : Byte) (s : State) (k : Reg → Reg → Ran Unit) :
    (∃ q r, a = regByte q ∧ b = regByte r ∧ withRegs a b s k = k q r) ∨
      ((isRegByte a = false ∨ isRegByte b = false) ∧
        withRegs a b s k = .raised (s.raise .invalidRegisterIndex)) := by
  rcases withReg_cases a s fun q => withReg b s fun r => k q r with ⟨q, rfl, hq⟩ | ⟨ha, hq⟩
  · rcases withReg_cases b s (k q) with ⟨r, rfl, hr⟩ | ⟨hb, hr⟩
    · exact .inl ⟨q, r, rfl, rfl, hq.trans hr⟩
    · exact .inr ⟨.inr hb, hq.trans hr⟩
  · exact .inr ⟨.inl ha, hq⟩

/-! Sequences. -/

@[simp] theorem andThen_ok {α β : Type} (v : α) (s : State) (k : α → State → Ran β) :
    (Ran.ok v s).andThen k = k v s := rfl

@[simp] theorem andThen_raised {α β : Type} (s : State) (k : α → State → Ran β) :
    (Ran.raised s : Ran α).andThen k = .raised s := rfl

@[simp] theorem final_ok {α : Type} (v : α) (s : State) : (Ran.ok v s).final = s := rfl

@[simp] theorem final_raised {α : Type} (s : State) : (Ran.raised s : Ran α).final = s := rfl

/-- What holds of the state an operation ends in, and is carried on by what follows it, holds at the end. -/
theorem andThen_final {α β : Type} (P : State → Prop) (r : Ran α) (k : α → State → Ran β)
    (hr : P r.final) (hk : ∀ v s, P s → P (k v s).final) : P (r.andThen k).final := by
  cases r with
  | ok v s => exact hk v s hr
  | raised s => exact hr

/-! The stack (R140, R141). -/

theorem push_ok (v : Byte) (s : State) (h : s.reg 7 ≠ 0#8) :
    push v s = .ok () ((s.setReg 7 (s.reg 7 - 1#8)).writeMem (pushAddress s) v) := by
  rw [push, pushWith, if_neg fun hc => h hc.2]
  rfl

theorem push_fault (v : Byte) (s : State) (h : s.reg 7 = 0#8) :
    push v s = .raised (s.raise .stackPointerOutOfRange) := by
  rw [push, pushWith, if_pos ⟨rfl, h⟩]

theorem pop_ok (s : State) (h : s.reg 7 ≠ 255#8) :
    pop s = .ok (s.readMem (s.reg 7)) (s.setReg 7 (s.reg 7 + 1#8)) := by
  rw [pop, popWith, if_neg fun hc => h hc.2]

theorem pop_fault (s : State) (h : s.reg 7 = 255#8) :
    pop s = .raised (s.raise .stackPointerOutOfRange) := by
  rw [pop, popWith, if_pos ⟨rfl, h⟩]

/-- A push decrements SP and writes one byte there, or ends in `StackPointerOutOfRange` with nothing written. -/
theorem push_cases (v : Byte) (s : State) :
    (s.reg 7 ≠ 0#8 ∧ push v s = .ok () ((s.setReg 7 (s.reg 7 - 1#8)).writeMem (pushAddress s) v)) ∨
      (s.reg 7 = 0#8 ∧ push v s = .raised (s.raise .stackPointerOutOfRange)) := by
  by_cases h : s.reg 7 = 0#8
  · exact .inr ⟨h, push_fault v s h⟩
  · exact .inl ⟨h, push_ok v s h⟩

/-- A pop reads the byte at SP and increments SP, or ends in `StackPointerOutOfRange` with nothing written. -/
theorem pop_cases (s : State) :
    (s.reg 7 ≠ 255#8 ∧ pop s = .ok (s.readMem (s.reg 7)) (s.setReg 7 (s.reg 7 + 1#8))) ∨
      (s.reg 7 = 255#8 ∧ pop s = .raised (s.raise .stackPointerOutOfRange)) := by
  by_cases h : s.reg 7 = 255#8
  · exact .inr ⟨h, pop_fault s h⟩
  · exact .inl ⟨h, pop_ok s h⟩

/-! The stack pointer as a number. -/

theorem toNat_sub_one (v : Byte) (h : v ≠ 0#8) : (v - 1#8).toNat = v.toNat - 1 := by
  bv_omega

theorem toNat_add_one (v : Byte) (h : v ≠ 255#8) : (v + 1#8).toNat = v.toNat + 1 := by
  bv_omega

theorem pushAddress_toNat (s : State) (h : s.reg 7 ≠ 0#8) : (pushAddress s).toNat = (s.reg 7).toNat - 1 :=
  toNat_sub_one _ h

/-- Pops into registers other than SP either all succeed, or one of them finds SP at 255 and raises. -/
theorem popRegs_cases (rs : List Reg) (h7 : 7 ∉ rs) (s : State) :
    (∃ t, popRegs rs s = .ok () t ∧ (t.reg 7).toNat = (s.reg 7).toNat + rs.length) ∨
      (255 < (s.reg 7).toNat + rs.length ∧
        ∃ t, popRegs rs s = .raised t ∧ t.run = .faulted .stackPointerOutOfRange) := by
  induction rs generalizing s with
  | nil => exact .inl ⟨s, rfl, rfl⟩
  | cons r rs ih =>
    rw [List.mem_cons, not_or] at h7
    rw [List.length_cons]
    rcases pop_cases s with ⟨hs, hp⟩ | ⟨hs, hp⟩
    · rw [popRegs, hp, andThen_ok]
      have hsp : (((s.setReg 7 (s.reg 7 + 1#8)).setReg r (s.readMem (s.reg 7))).reg 7).toNat
          = (s.reg 7).toNat + 1 := by
        rw [reg_setReg_other _ _ _ _ (Ne.symm h7.1), reg_setReg_same, toNat_add_one _ hs]
      rcases ih h7.2 ((s.setReg 7 (s.reg 7 + 1#8)).setReg r (s.readMem (s.reg 7))) with ⟨t, ht, hl⟩ | ⟨hl, ht⟩
      · exact .inl ⟨t, ht, by omega⟩
      · exact .inr ⟨by omega, ht⟩
    · exact .inr ⟨by rw [hs]; simp only [BitVec.toNat_ofNat]; omega, _, by rw [popRegs, hp]; rfl, rfl⟩

/-- Pushes either all succeed, or one of them finds SP at 0 and raises. -/
theorem pushRegs_cases (rs : List Reg) (s : State) :
    (∃ t, pushRegs rs s = .ok () t ∧ (t.reg 7).toNat + rs.length = (s.reg 7).toNat) ∨
      ((s.reg 7).toNat < rs.length ∧
        ∃ t, pushRegs rs s = .raised t ∧ t.run = .faulted .stackPointerOutOfRange) := by
  induction rs generalizing s with
  | nil => exact .inl ⟨s, rfl, rfl⟩
  | cons r rs ih =>
    rw [List.length_cons]
    rcases push_cases (s.reg r) s with ⟨hs, hp⟩ | ⟨hs, hp⟩
    · rw [pushRegs, hp, andThen_ok]
      have hsp : (((s.setReg 7 (s.reg 7 - 1#8)).writeMem (pushAddress s) (s.reg r)).reg 7).toNat + 1
          = (s.reg 7).toNat := by
        rw [writeMem_reg, reg_setReg_same]
        bv_omega
      rcases ih ((s.setReg 7 (s.reg 7 - 1#8)).writeMem (pushAddress s) (s.reg r)) with ⟨t, ht, hl⟩ | ⟨hl, ht⟩
      · exact .inl ⟨t, ht, by omega⟩
      · exact .inr ⟨by omega, ht⟩
    · exact .inr ⟨by rw [hs]; simp only [BitVec.toNat_ofNat]; omega, _, by rw [pushRegs, hp]; rfl, rfl⟩

/-- Pops into distinct registers other than SP: each gets the byte at its place above SP, SP rises by their
number, and nothing else changes. -/
theorem popRegs_ok (rs : List Reg) (h7 : 7 ∉ rs) (hd : rs.Nodup) (s : State)
    (hroom : (s.reg 7).toNat + rs.length ≤ 255) :
    ∃ t, popRegs rs s = .ok () t ∧ (t.reg 7).toNat = (s.reg 7).toNat + rs.length ∧
      (∀ k (h : k < rs.length), t.reg rs[k] = s.mem.get ((s.reg 7).toNat + k)) ∧
      (∀ r, r ∉ rs → r ≠ 7 → t.reg r = s.reg r) ∧ t = { s with regs := t.regs } := by
  induction rs generalizing s with
  | nil => exact ⟨s, rfl, rfl, nofun, fun _ _ _ => rfl, rfl⟩
  | cons r rs ih =>
    rw [List.mem_cons, not_or] at h7
    obtain ⟨hr, hd⟩ := List.nodup_cons.mp hd
    rw [List.length_cons] at hroom
    have hs : s.reg 7 ≠ 255#8 := by bv_omega
    have hsp : (((s.setReg 7 (s.reg 7 + 1#8)).setReg r (s.readMem (s.reg 7))).reg 7).toNat
        = (s.reg 7).toNat + 1 := by
      rw [reg_setReg_other _ _ _ _ (Ne.symm h7.1), reg_setReg_same, toNat_add_one _ hs]
    obtain ⟨t, ht, hl, hv, ho, he⟩ :=
      ih h7.2 hd ((s.setReg 7 (s.reg 7 + 1#8)).setReg r (s.readMem (s.reg 7))) (by omega)
    refine ⟨t, by rw [popRegs, pop_ok s hs, andThen_ok, ht], by rw [hl, hsp, List.length_cons]; omega,
      fun k hk => ?_, fun q hq hq7 => ?_, he⟩
    · cases k with
      | zero =>
        rw [List.getElem_cons_zero, ho r hr (Ne.symm h7.1), reg_setReg_same]
        rfl
      | succ k =>
        rw [List.getElem_cons_succ, hv k, hsp, Nat.add_assoc, Nat.add_comm 1 k]
        rfl
    · rw [List.mem_cons, not_or] at hq
      rw [ho q hq.2 hq7, reg_setReg_other _ _ _ _ (Ne.symm hq.1), reg_setReg_other _ _ _ _ (Ne.symm hq7)]

/-- Pushes of registers other than SP: each value lies at its place below SP, SP falls by their number, and
nothing else changes. -/
theorem pushRegs_ok (rs : List Reg) (h7 : 7 ∉ rs) (s : State) (hroom : rs.length ≤ (s.reg 7).toNat) :
    ∃ t, pushRegs rs s = .ok () t ∧ (t.reg 7).toNat = (s.reg 7).toNat - rs.length ∧
      (∀ k (h : k < rs.length), t.mem.get ((s.reg 7).toNat - 1 - k) = s.reg rs[k]) ∧
      (∀ j, j < (s.reg 7).toNat - rs.length ∨ (s.reg 7).toNat ≤ j → t.mem.get j = s.mem.get j) ∧
      (∀ r, r ≠ 7 → t.reg r = s.reg r) ∧ t = { s with mem := t.mem, regs := t.regs } := by
  induction rs generalizing s with
  | nil => exact ⟨s, rfl, rfl, nofun, fun _ _ => rfl, fun _ _ => rfl, rfl⟩
  | cons r rs ih =>
    rw [List.mem_cons, not_or] at h7
    rw [List.length_cons] at hroom
    have hs : s.reg 7 ≠ 0#8 := by bv_omega
    have ha := pushAddress_toNat s hs
    have hsp : (((s.setReg 7 (s.reg 7 - 1#8)).writeMem (pushAddress s) (s.reg r)).reg 7).toNat
        = (s.reg 7).toNat - 1 := by
      rw [writeMem_reg, reg_setReg_same, toNat_sub_one _ hs]
    have hreg : ∀ q, q ≠ 7 → ((s.setReg 7 (s.reg 7 - 1#8)).writeMem (pushAddress s) (s.reg r)).reg q = s.reg q :=
      fun q hq => by rw [writeMem_reg, reg_setReg_other _ _ _ _ (Ne.symm hq)]
    obtain ⟨t, ht, hl, hv, hm, ho, he⟩ :=
      ih h7.2 ((s.setReg 7 (s.reg 7 - 1#8)).writeMem (pushAddress s) (s.reg r)) (by omega)
    rw [hsp] at hl hv hm
    refine ⟨t, by rw [pushRegs, push_ok _ s hs, andThen_ok, ht], by rw [hl, List.length_cons]; omega,
      fun k hk => ?_, fun j hj => ?_, fun q hq => by rw [ho q hq, hreg q hq], he⟩
    · cases k with
      | zero =>
        rw [List.getElem_cons_zero, hm _ (.inr (by omega)), writeMem_mem, ha, Nat.sub_zero, get_set_same]
      | succ k =>
        rw [List.getElem_cons_succ]
        have hk' : k < rs.length := by rw [List.length_cons] at hk; omega
        have := hv k hk'
        rw [hreg _ (fun e => h7.2 (e ▸ List.getElem_mem hk'))] at this
        rw [← this]
        congr 1
        omega
    · rw [List.length_cons] at hj
      rw [hm j (by omega), writeMem_mem, ha, get_set_other _ _ _ _ (by omega)]
      rfl

/-- What every push carries on, a sequence of pushes carries on. -/
theorem pushRegs_final (P : State → Prop) (hpush : ∀ v s, P s → P (push v s).final) (rs : List Reg) (s : State)
    (h : P s) : P (pushRegs rs s).final := by
  induction rs generalizing s with
  | nil => exact h
  | cons r rs ih => exact andThen_final P _ _ (hpush _ _ h) fun _ _ hs => ih _ hs

/-- What every pop and every register write carries on, a sequence of pops carries on. -/
theorem popRegs_final (P : State → Prop) (hpop : ∀ s, P s → P (pop s).final)
    (hreg : ∀ s r v, P s → P (s.setReg r v)) (rs : List Reg) (s : State) (h : P s) : P (popRegs rs s).final := by
  induction rs generalizing s with
  | nil => exact h
  | cons r rs ih => exact andThen_final P _ _ (hpop _ h) fun _ _ hs => ih _ (hreg _ _ _ hs)

/-- What a push, a clear of IS and a jump carry on, interrupt entry carries on (R179). -/
theorem interruptEntry_final (P : State → Prop) (hpush : ∀ v s, P s → P (push v s).final)
    (hclear : ∀ s, P s → P (s.setReg 6 0#8)) (hjump : ∀ (s : State) (v : Byte), P s → P (s.setPc v.toNat))
    (i : Fin 8) (s : State) (h : P s) : P (interruptEntry i s).final :=
  andThen_final P _ _ (hpush _ _ (hclear _ h)) fun _ _ h1 =>
    andThen_final P _ _ (hpush _ _ h1) fun _ _ h2 =>
      andThen_final P _ _ (pushRegs_final P hpush _ _ h2) fun _ _ h3 => hjump _ _ h3

/-- What a pop, a write of a register or of `fl` and a jump carry on, the return carries on (R161). -/
theorem interruptReturn_final (P : State → Prop) (hpop : ∀ s, P s → P (pop s).final)
    (hreg : ∀ s r v, P s → P (s.setReg r v)) (hfl : ∀ s v, P s → P (s.setFl v))
    (hjump : ∀ (s : State) (v : Byte), P s → P (s.setPc v.toNat)) (s : State) (h : P s) :
    P (interruptReturn s).final :=
  andThen_final P _ _ (popRegs_final P hpop hreg _ _ h) fun _ _ h1 =>
    andThen_final P _ _ (hpop _ h1) fun _ _ h2 =>
      andThen_final P _ _ (hpop _ (hfl _ _ h2)) fun _ _ h3 => hjump _ _ h3

/-! The timer check (R93): only register 6 and the model's own input fields can change. -/

section TimerCheck
variable (s : State)

@[simp] theorem timerCheck_mem : (timerCheck s).mem = s.mem := rfl
@[simp] theorem timerCheck_pc : (timerCheck s).pc = s.pc := rfl
@[simp] theorem timerCheck_fl : (timerCheck s).fl = s.fl := rfl
@[simp] theorem timerCheck_run : (timerCheck s).run = s.run := rfl
@[simp] theorem timerCheck_hint : (timerCheck s).hint = s.hint := rfl
@[simp] theorem timerCheck_prn : (timerCheck s).prn = s.prn := rfl
@[simp] theorem timerCheck_ticks : (timerCheck s).ticks = s.ticks.tail := rfl
@[simp] theorem timerCheck_cycle : (timerCheck s).cycle = s.cycle + 1 := rfl

theorem timerCheck_reg (r : Reg) :
    (timerCheck s).reg r = if 6 = r then timerStatus s else s.reg r := by
  rw [timerCheck, reg_setReg, sampleTick_reg]

end TimerCheck

end Sys2Proof.Machine
end

