-- ==== Sys2Proof/Laws/Exec.lean ====
section
/-! SUPPORT. What an instruction can do, said once over all 24 (spec/40_dispatch.md R89): each lemma reduces a
property of the state after it to the few forms that state can have. -/

namespace Sys2Proof.Machine

variable (P : State → Prop)

/-! The shared operations. -/

theorem push_final (v : Byte) (s : State) (hfault : P (s.raise .stackPointerOutOfRange))
    (hok : P ((s.setReg 7 (s.reg 7 - 1#8)).writeMem (pushAddress s) v)) : P (push v s).final := by
  rcases push_cases v s with ⟨-, e⟩ | ⟨-, e⟩ <;> rw [e] <;> assumption

theorem pop_final (s : State) (hfault : P (s.raise .stackPointerOutOfRange))
    (hok : P (s.setReg 7 (s.reg 7 + 1#8))) : P (pop s).final := by
  rcases pop_cases s with ⟨-, e⟩ | ⟨-, e⟩ <;> rw [e] <;> assumption

theorem push_then_final (v : Byte) (s : State) (k : State → State) (hfault : P (s.raise .stackPointerOutOfRange))
    (hok : P (k ((s.setReg 7 (s.reg 7 - 1#8)).writeMem (pushAddress s) v))) :
    P ((push v s).andThen fun _ t => .ok () (k t)).final := by
  rcases push_cases v s with ⟨-, e⟩ | ⟨-, e⟩ <;> rw [e] <;> assumption

theorem pop_then_final (s : State) (k : Byte → State → State) (hfault : P (s.raise .stackPointerOutOfRange))
    (hok : ∀ v, P (k v (s.setReg 7 (s.reg 7 + 1#8)))) : P ((pop s).andThen fun v t => .ok () (k v t)).final := by
  rcases pop_cases s with ⟨-, e⟩ | ⟨-, e⟩ <;> rw [e]
  · exact hok _
  · exact hfault

theorem withReg_final (a : Byte) (s : State) (k : Reg → Ran Unit) (hbad : P (s.raise .invalidRegisterIndex))
    (hk : ∀ r, a = regByte r → P (k r).final) : P (withReg a s k).final := by
  rcases withReg_cases a s k with ⟨r, hr, e⟩ | ⟨-, e⟩ <;> rw [e]
  · exact hk r hr
  · exact hbad

theorem withRegs_final (a b : Byte) (s : State) (k : Reg → Reg → Ran Unit)
    (hbad : P (s.raise .invalidRegisterIndex))
    (hk : ∀ q r, a = regByte q → b = regByte r → P (k q r).final) : P (withRegs a b s k).final := by
  rcases withRegs_cases a b s k with ⟨q, r, hq, hr, e⟩ | ⟨-, e⟩ <;> rw [e]
  · exact hk q r hq hr
  · exact hbad

/-- What a raise, a write of a register, of `fl` and of `pc` keep, IRET keeps (R161). -/
theorem interruptReturn_keeps (hraise : ∀ s c, P s → P (s.raise c)) (hreg : ∀ s r v, P s → P (s.setReg r v))
    (hfl : ∀ s v, P s → P (s.setFl v)) (hpc : ∀ (s : State) (v : Byte), P s → P (s.setPc v.toNat)) (s : State)
    (h : P s) : P (interruptReturn s).final :=
  interruptReturn_final P (fun s h => pop_final P s (hraise _ _ h) (hreg _ _ _ h)) hreg hfl hpc s h

/-- What a raise and a write of a register, of memory and of `pc` keep, interrupt entry keeps (R179). -/
theorem interruptEntry_keeps (hraise : ∀ s c, P s → P (s.raise c)) (hreg : ∀ s r v, P s → P (s.setReg r v))
    (hmem : ∀ s a v, P s → P (s.writeMem a v)) (hpc : ∀ (s : State) (v : Byte), P s → P (s.setPc v.toNat))
    (i : Fin 8) (s : State) (h : P s) : P (interruptEntry i s).final :=
  interruptEntry_final P (fun v s h => push_final P v s (hraise _ _ h) (hmem _ _ _ (hreg _ _ _ h)))
    (fun _ h => hreg _ _ _ h) hpc i s h

/-! All instructions. -/

/-- Every instruction answers a next state, and that state has one of these forms. -/
theorem exec_final (i : Instr) (s : State)
    (raise : ∀ c, P (s.raise c))
    (writeReg : ∀ r v, (∀ a, i ≠ .pop a) → i ≠ .iret → P ((s.setReg r v).advance i.op.width))
    (cmp : ∀ a b f, i = .cmp a b → P ((s.orFlag f).advance 3))
    (st : ∀ a b k v, i = .st a b → P ((s.writeMem k v).advance 3))
    (prn : ∀ a v, i = .prn a → P ((s.appendPrn v).advance 2))
    (pra : ∀ a v, i = .pra a → P ((s.appendHint v).advance 2))
    (push : ∀ a v, i = .push a →
      P (((s.setReg 7 (s.reg 7 - 1#8)).writeMem (pushAddress s) v).advance 2))
    (pop : ∀ a r v, i = .pop a → P (((s.setReg 7 (s.reg 7 + 1#8)).setReg r v).advance 2))
    (call : ∀ a v (t : Byte), i = .call a →
      P (((s.setReg 7 (s.reg 7 - 1#8)).writeMem (pushAddress s) v).setPc t.toNat))
    (ret : ∀ t : Byte, i = .ret → P ((s.setReg 7 (s.reg 7 + 1#8)).setPc t.toNat))
    (jump : ∀ t : Byte, i.op.setsPc = true → P (s.setPc t.toNat))
    (notTaken : ∀ a, i = .jeq a ∨ i = .jne a → P (s.advance 2))
    (hlt : i = .hlt → P (s.setRun .halted))
    (iret : i = .iret → P (interruptReturn s).final) :
    ∃ t, exec i s = .next t ∧ P t := by
  have binary : ∀ f a b, (∀ a, i ≠ .pop a) → i ≠ .iret → i.op.width = 3 → P (aluBinary f a b s).final :=
    fun f a b h1 h2 h3 => withRegs_final P _ _ _ _ (raise _) fun _ _ _ _ => h3 ▸ writeReg _ _ h1 h2
  cases i with
  | hlt => exact ⟨_, rfl, hlt rfl⟩
  | ldi a b | addi a b | not a =>
    exact ⟨_, rfl, withReg_final P _ _ _ (raise _) fun _ _ => writeReg _ _ (by simp) (by simp)⟩
  | prn a => exact ⟨_, rfl, withReg_final P _ _ _ (raise _) fun _ _ => prn _ _ rfl⟩
  | pra a => exact ⟨_, rfl, withReg_final P _ _ _ (raise _) fun _ _ => pra _ _ rfl⟩
  | push a =>
    exact ⟨_, rfl, withReg_final P _ _ _ (raise _) fun _ _ =>
      push_then_final P _ _ (·.advance 2) (raise _) (push _ _ rfl)⟩
  | pop a =>
    exact ⟨_, rfl, withReg_final P _ _ _ (raise _) fun r _ =>
      pop_then_final P _ (fun v t => (t.setReg r v).advance 2) (raise _) fun _ => pop _ _ _ rfl⟩
  | call a =>
    refine ⟨_, rfl, withReg_final P _ _ _ (raise _) fun _ _ => ?_⟩
    split
    · exact raise _
    · exact push_then_final P _ _ (·.setPc _) (raise _) (call _ _ _ rfl)
  | ret => exact ⟨_, rfl, pop_then_final P _ (fun v t => t.setPc v.toNat) (raise _) fun _ => ret _ rfl⟩
  | st a b => exact ⟨_, rfl, withRegs_final P _ _ _ _ (raise _) fun _ _ _ _ => st _ _ _ _ rfl⟩
  | cmp a b => exact ⟨_, rfl, withRegs_final P _ _ _ _ (raise _) fun _ _ _ _ => cmp _ _ _ rfl⟩
  | mod a b =>
    refine ⟨_, rfl, withRegs_final P _ _ _ _ (raise _) fun _ _ _ _ => ?_⟩
    split
    · exact raise _
    · exact writeReg _ _ (by simp) (by simp)
  | jmp a => exact ⟨_, rfl, withReg_final P _ _ _ (raise _) fun _ _ => jump _ rfl⟩
  | jeq a =>
    refine ⟨_, rfl, withReg_final P _ _ _ (raise _) fun _ _ => ?_⟩
    rw [final_ok]; split
    · exact jump _ rfl
    · exact notTaken _ (.inl rfl)
  | jne a =>
    refine ⟨_, rfl, withReg_final P _ _ _ (raise _) fun _ _ => ?_⟩
    rw [final_ok]; split
    · exact notTaken _ (.inr rfl)
    · exact jump _ rfl
  | iret => exact ⟨_, rfl, iret rfl⟩
  | add a b | mul a b | and a b | or a b | xor a b | shl a b | shr a b =>
    exact ⟨_, rfl, binary _ _ _ (by simp) (by simp) rfl⟩

end Sys2Proof.Machine
end

