-- ==== Sys2Proof/Laws/PerInstr.lean ====
section
/-! SUPPORT. The family EncodedShape: an instruction has the operand bytes its operation's descriptor counts,
1 to 3 bytes in all, and is put together again from them (spec/30_encoding.md R70, R71, R80, R84). One lemma per
constructor. -/

namespace Sys2Proof.Laws.EncodedShape

/-- Under every opcode map, `i` takes as many bytes as its operation's width, at most 3, and its operation and
operand bytes give `i` back. -/
def Statement (i : Instr) : Prop :=
  ∀ m : AluOpcodeMap, (encodeWith m i).length = i.op.width ∧ i.op.width ≤ 3 ∧
    i.op.assemble (i.operands.getD 0 0) (i.operands.getD 1 0) = i

theorem hlt : Statement .hlt := fun _ => ⟨rfl, Nat.le_of_ble_eq_true rfl, rfl⟩

theorem ldi (a imm : Byte) : Statement (.ldi a imm) := fun _ => ⟨rfl, Nat.le_of_ble_eq_true rfl, rfl⟩

theorem prn (a : Byte) : Statement (.prn a) := fun _ => ⟨rfl, Nat.le_of_ble_eq_true rfl, rfl⟩

theorem push (a : Byte) : Statement (.push a) := fun _ => ⟨rfl, Nat.le_of_ble_eq_true rfl, rfl⟩

theorem pop (a : Byte) : Statement (.pop a) := fun _ => ⟨rfl, Nat.le_of_ble_eq_true rfl, rfl⟩

theorem call (a : Byte) : Statement (.call a) := fun _ => ⟨rfl, Nat.le_of_ble_eq_true rfl, rfl⟩

theorem ret : Statement .ret := fun _ => ⟨rfl, Nat.le_of_ble_eq_true rfl, rfl⟩

theorem st (a b : Byte) : Statement (.st a b) := fun _ => ⟨rfl, Nat.le_of_ble_eq_true rfl, rfl⟩

theorem iret : Statement .iret := fun _ => ⟨rfl, Nat.le_of_ble_eq_true rfl, rfl⟩

theorem jmp (a : Byte) : Statement (.jmp a) := fun _ => ⟨rfl, Nat.le_of_ble_eq_true rfl, rfl⟩

theorem pra (a : Byte) : Statement (.pra a) := fun _ => ⟨rfl, Nat.le_of_ble_eq_true rfl, rfl⟩

theorem jeq (a : Byte) : Statement (.jeq a) := fun _ => ⟨rfl, Nat.le_of_ble_eq_true rfl, rfl⟩

theorem jne (a : Byte) : Statement (.jne a) := fun _ => ⟨rfl, Nat.le_of_ble_eq_true rfl, rfl⟩

theorem addi (a imm : Byte) : Statement (.addi a imm) := fun _ => ⟨rfl, Nat.le_of_ble_eq_true rfl, rfl⟩

theorem add (a b : Byte) : Statement (.add a b) := fun _ => ⟨rfl, Nat.le_of_ble_eq_true rfl, rfl⟩

theorem mul (a b : Byte) : Statement (.mul a b) := fun _ => ⟨rfl, Nat.le_of_ble_eq_true rfl, rfl⟩

theorem mod (a b : Byte) : Statement (.mod a b) := fun _ => ⟨rfl, Nat.le_of_ble_eq_true rfl, rfl⟩

theorem cmp (a b : Byte) : Statement (.cmp a b) := fun _ => ⟨rfl, Nat.le_of_ble_eq_true rfl, rfl⟩

theorem and (a b : Byte) : Statement (.and a b) := fun _ => ⟨rfl, Nat.le_of_ble_eq_true rfl, rfl⟩

theorem not (a : Byte) : Statement (.not a) := fun _ => ⟨rfl, Nat.le_of_ble_eq_true rfl, rfl⟩

theorem or (a b : Byte) : Statement (.or a b) := fun _ => ⟨rfl, Nat.le_of_ble_eq_true rfl, rfl⟩

theorem xor (a b : Byte) : Statement (.xor a b) := fun _ => ⟨rfl, Nat.le_of_ble_eq_true rfl, rfl⟩

theorem shl (a b : Byte) : Statement (.shl a b) := fun _ => ⟨rfl, Nat.le_of_ble_eq_true rfl, rfl⟩

theorem shr (a b : Byte) : Statement (.shr a b) := fun _ => ⟨rfl, Nat.le_of_ble_eq_true rfl, rfl⟩

end Sys2Proof.Laws.EncodedShape
end

