-- ==== Sys2Proof/Laws/ProgramText.lean ====
section
/-! SUPPORT. What a line of a program file comes to (spec/30_encoding.md R81). -/

namespace Sys2Proof.Machine

/-- The only parse error is a bad line. -/
theorem parseProgram_error (lines : List (List Char)) (e : LoadError) (h : parseProgram lines = .error e) :
    e = .badLine := by
  induction lines with
  | nil => cases h
  | cons line lines ih =>
    rw [parseProgram] at h
    split at h
    · exact ih h
    · split at h
      · cases h
      · next heq => cases h; exact ih heq
      · cases h; rfl

theorem literalByte_byteLiteral (b : Byte) : literalByte (byteLiteral b) = some b := by
  revert b; decide

theorem mem_byteLiteral (b : Byte) (c : Char) (h : c ∈ byteLiteral b) : c = '0' ∨ c = '1' := by
  obtain ⟨k, -, rfl⟩ := List.mem_map.mp h
  split
  · exact .inr rfl
  · exact .inl rfl

/-- The content of a line is what its part before the comment is without blanks at either end. -/
theorem lineContent_split (line : List Char) :
    ∃ pre post, (∀ c ∈ pre, isBlank c = true) ∧ (∀ c ∈ post, isBlank c = true) ∧
      line.takeWhile (· != '#') = pre ++ lineContent line ++ post := by
  unfold lineContent
  generalize line.takeWhile (· != '#') = u
  refine ⟨u.takeWhile isBlank, ((u.dropWhile isBlank).reverse.takeWhile isBlank).reverse,
    List.all_eq_true.mp (List.all_takeWhile), fun c hc => ?_, ?_⟩
  · exact List.all_eq_true.mp List.all_takeWhile c (List.mem_reverse.mp hc)
  · rw [List.append_assoc, ← List.reverse_append, List.takeWhile_append_dropWhile, List.reverse_reverse,
      List.takeWhile_append_dropWhile]

theorem lineContent_blank (line : List Char) (h : ∀ c ∈ line.takeWhile (· != '#'), isBlank c = true) :
    lineContent line = [] := by
  unfold lineContent
  generalize line.takeWhile (· != '#') = u at h
  have : u.dropWhile isBlank = [] := by
    induction u with
    | nil => rfl
    | cons c cs ih =>
      rw [List.dropWhile_cons_of_pos (h c List.mem_cons_self)]
      exact ih fun d hd => h d (List.mem_cons_of_mem c hd)
  rw [this]
  rfl

end Sys2Proof.Machine
end

