-- ==== Sys2Proof/Laws/Step.lean ====
section
/-! SUPPORT. What a cycle can do, said once (spec/40_dispatch.md R90), and that what is fetched lies in memory
(R98). -/

namespace Sys2Proof.Machine

/-- Steps 0 to 6 end in one of five ways. -/
theorem prepare_cases (s : State) :
    (s.run ≠ .running ∧ prepare s = .ended s) ∨
    (s.run = .running ∧ 255 < s.pc ∧ prepare s = .ended (s.raise .pcOutOfRange)) ∨
    (s.run = .running ∧ s.pc ≤ 255 ∧ ∃ i, pendingInterrupt (timerCheck s) = some i ∧
      prepare s = .ended (interruptEntry i (timerCheck s)).final) ∨
    (s.run = .running ∧ s.pc ≤ 255 ∧ pendingInterrupt (timerCheck s) = none ∧
      ∃ i, fetch (timerCheck s) = .ok i ∧ prepare s = .execute i (timerCheck s)) ∨
    (s.run = .running ∧ s.pc ≤ 255 ∧ pendingInterrupt (timerCheck s) = none ∧
      ∃ e, fetch (timerCheck s) = .error e ∧ prepare s = .ended ((timerCheck s).raise (rejectCause e))) := by
  by_cases hr : s.run = .running
  · by_cases hp : 255 < s.pc
    · exact .inr (.inl ⟨hr, hp, by rw [prepare, hr]; exact if_pos hp⟩)
    · have hin : prepare s = prepareInRange s := by rw [prepare, hr]; exact if_neg hp
      have hp' : s.pc ≤ 255 := by omega
      cases hi : pendingInterrupt (timerCheck s) with
      | some i => exact .inr (.inr (.inl ⟨hr, hp', i, rfl, by rw [hin, prepareInRange, hi]⟩))
      | none =>
        cases hf : fetch (timerCheck s) with
        | ok i =>
          exact .inr (.inr (.inr (.inl ⟨hr, hp', rfl, i, rfl, by rw [hin, prepareInRange, hi]; simp only [hf]⟩)))
        | error e =>
          exact .inr (.inr (.inr (.inr ⟨hr, hp', rfl, e, rfl, by rw [hin, prepareInRange, hi]; simp only [hf]⟩)))
  · refine .inl ⟨hr, ?_⟩
    rw [prepare]
    cases h : s.run with
    | running => exact absurd h hr
    | halted => rfl
    | faulted c => rfl

/-- What holds of every state a cycle can end in holds of the next state. -/
theorem step_cases (P : State → Prop) (s t : State) (ht : step s = .next t)
    (ended : s.run ≠ .running → P s)
    (pcOut : s.run = .running → 255 < s.pc → P (s.raise .pcOutOfRange))
    (service : ∀ i, s.run = .running → s.pc ≤ 255 → pendingInterrupt (timerCheck s) = some i →
      P (interruptEntry i (timerCheck s)).final)
    (rejected : ∀ e, s.run = .running → s.pc ≤ 255 → pendingInterrupt (timerCheck s) = none →
      fetch (timerCheck s) = .error e → P ((timerCheck s).raise (rejectCause e)))
    (runs : ∀ i, s.run = .running → s.pc ≤ 255 → fetch (timerCheck s) = .ok i → Runs s i (timerCheck s) →
      exec i (timerCheck s) = .next t → P t) : P t := by
  rw [step] at ht
  rcases prepare_cases s with ⟨hr, e⟩ | ⟨hr, hp, e⟩ | ⟨hr, hp, i, hi, e⟩ | ⟨hr, hp, hn, i, hi, e⟩ |
    ⟨hr, hp, hn, x, hx, e⟩ <;> rw [e] at ht
  · cases ht; exact ended hr
  · cases ht; exact pcOut hr hp
  · cases ht; exact service i hr hp hi
  · exact runs i hr hp hi e ht
  · cases ht; exact rejected x hr hp hn hx

/-- Nothing above address 255 is read (R52). -/
theorem bytesFrom_length_le (m : Memory) (k n : Nat) : (m.bytesFrom k n).length ≤ 256 - k := by
  induction n generalizing k with
  | zero => exact Nat.zero_le _
  | succ n ih =>
    unfold Memory.bytesFrom
    split
    · next h =>
      have := ih (k + 1)
      have hk : k < 256 := h
      rw [List.length_cons]
      omega
    · exact Nat.zero_le _

/-- The bytes an instruction was fetched from all lie below 256 (R98). -/
theorem fetch_width (s : State) (i : Instr) (hp : s.pc ≤ 255) (h : fetch s = .ok i) :
    s.pc + i.op.width ≤ 256 := by
  have key : ∀ (n : Nat) (bs : List Byte), bs.length ≤ n → ∀ r, decode bs = .ok (i, r) → i.op.width ≤ n := by
    intro n bs hn r hd
    cases bs with
    | nil => cases hd
    | cons b bs =>
      rw [decode, decodeWith] at hd
      cases hl : lookupOp defaultAluOpcodeMap b with
      | none => rw [hl] at hd; cases hd
      | some o =>
        rw [hl] at hd
        rcases bs with _ | ⟨x, _ | ⟨y, bs⟩⟩ <;> cases o <;> cases hd <;>
          simp only [List.length_cons, List.length_nil] at hn <;>
          simp only [Instr.op, Op.assemble, Op.width, Op.operandCount, Op.format, Format.operandCount] <;> omega
  rw [fetch] at h
  cases hd : decode (s.mem.bytesFrom s.pc 3) with
  | error e => rw [hd] at h; cases h
  | ok p =>
    rw [hd] at h; cases h
    have hw := key (256 - s.pc) _ (bytesFrom_length_le s.mem s.pc 3) _ hd
    omega

end Sys2Proof.Machine
end

