-- ==== Sys2Proof/Tests/Slice0.lean ====
section
/-! SUPPORT. Tests of the model against the spec's own vectors (spec/95_test_vectors.md; a test's name ends in the
vector's id) and against words written out from spec/30_encoding.md, and a witness for the hypotheses of each
statement. -/

namespace Sys2Proof.Tests

open Sys2Proof Sys2Proof.Machine

/-- `p` holds of the next state. -/
def after (r : Result) (p : State → Bool) : Bool :=
  match r with
  | .next t => p t
  | .fault _ => false
  | .refused _ => false

/-- A running state with these registers and these bytes at `pc`, whose coming tick is 0. -/
def start (pc : Nat) (x : Vector Byte 8) (bytes : List Byte) : State :=
  { State.reset with mem := Memory.setBytes [] pc bytes, regs := x, pc := pc, ticks := [false] }

/-- The same with a tick of 1. -/
def ticked (s : State) : State :=
  { s with ticks := [true] }

/-- The same with further bytes in memory. -/
def poke (s : State) (k : Nat) (bytes : List Byte) : State :=
  { s with mem := s.mem.setBytes k bytes }

/-! Well-formedness (R73, R74): an ill-formed term for each check. -/

theorem test_wellFormed_register_7 : (Instr.ldi 7 255).wellFormed = true := by decide
theorem test_illFormed_operand_a_of_ri : (Instr.ldi 8 0).wellFormed = false := by decide
theorem test_illFormed_operand_a_of_r : (Instr.push 255).wellFormed = false := by decide
theorem test_illFormed_operand_a_of_rr : (Instr.st 8 0).wellFormed = false := by decide
theorem test_illFormed_operand_b_of_rr : (Instr.add 0 8).wellFormed = false := by decide

/-! Decoding: one word per constructor, its opcode byte in binary and its operand bytes in hexadecimal. -/

theorem test_default_map_legal : defaultAluOpcodeMap.Legal := by decide

theorem test_decode_hlt : decode [0b00000001#8] = .ok (.hlt, []) := by rfl
theorem test_decode_ldi : decode [0b10000010#8, 0x03#8, 0xFF#8] = .ok (.ldi 3 255, []) := by rfl
theorem test_decode_prn : decode [0b01000111#8, 0x01#8] = .ok (.prn 1, []) := by rfl
theorem test_decode_push : decode [0b01000101#8, 0x02#8] = .ok (.push 2, []) := by rfl
theorem test_decode_pop : decode [0b01000110#8, 0x03#8] = .ok (.pop 3, []) := by rfl
theorem test_decode_call : decode [0b01010000#8, 0x04#8] = .ok (.call 4, []) := by rfl
theorem test_decode_ret : decode [0b00010001#8] = .ok (.ret, []) := by rfl
theorem test_decode_st : decode [0b10000100#8, 0x04#8, 0x00#8] = .ok (.st 4 0, []) := by rfl
theorem test_decode_iret : decode [0b00010011#8] = .ok (.iret, []) := by rfl
theorem test_decode_jmp : decode [0b01010100#8, 0x05#8] = .ok (.jmp 5, []) := by rfl
theorem test_decode_pra : decode [0b01001000#8, 0x06#8] = .ok (.pra 6, []) := by rfl
theorem test_decode_jeq : decode [0b01010101#8, 0x07#8] = .ok (.jeq 7, []) := by rfl
theorem test_decode_jne : decode [0b01010110#8, 0x00#8] = .ok (.jne 0, []) := by rfl
theorem test_decode_addi : decode [0b10001000#8, 0x01#8, 0x05#8] = .ok (.addi 1 5, []) := by rfl
theorem test_decode_add : decode [0b10100000#8, 0x00#8, 0x01#8] = .ok (.add 0 1, []) := by rfl
theorem test_decode_mul : decode [0b10100010#8, 0x01#8, 0x02#8] = .ok (.mul 1 2, []) := by rfl
theorem test_decode_mod : decode [0b10100100#8, 0x02#8, 0x03#8] = .ok (.mod 2 3, []) := by rfl
theorem test_decode_cmp : decode [0b10100111#8, 0x03#8, 0x04#8] = .ok (.cmp 3 4, []) := by rfl
theorem test_decode_and : decode [0b10101000#8, 0x04#8, 0x05#8] = .ok (.and 4 5, []) := by rfl
theorem test_decode_not : decode [0b01101001#8, 0x05#8, 0x01#8] = .ok (.not 5, [0x01#8]) := by rfl
theorem test_decode_or : decode [0b10101010#8, 0x06#8, 0x07#8] = .ok (.or 6 7, []) := by rfl
theorem test_decode_xor : decode [0b10101011#8, 0x07#8, 0x00#8] = .ok (.xor 7 0, []) := by rfl
theorem test_decode_shl : decode [0b10101100#8, 0x01#8, 0x00#8] = .ok (.shl 1 0, []) := by rfl
theorem test_decode_shr : decode [0b10101101#8, 0x00#8, 0x07#8] = .ok (.shr 0 7, []) := by rfl

/-- F2: bytes that are no opcode. -/
theorem test_unrecognized_F2 :
    ([0xFF#8, 0x02#8, 0x83#8, 0x12#8, 0x57#8, 0xA1#8, 0x65#8, 0x66#8, 0x00#8].all fun b =>
      lookupOp defaultAluOpcodeMap b == none) = true := by decide

/-- The table word numbers the first byte in bits 7 to 0. -/
theorem test_table_word_order : decodeTableWord 24 0x0184 = some (.st 1 0) := by rfl

/-- The first cycle after reset runs the instruction placed by `withFetchWord`. -/
theorem test_withFetchWord_runs :
    after (step (State.reset.withFetchWord 24 0x090182)) (fun t => t.reg 1 == 9 && t.pc == 3) = true := by decide

/-! Memory (R51). -/

theorem test_memory_sorted_and_trimmed :
    Memory.setBytes [(7, 1#8)] 5 [2#8, 3#8, 0#8] = [(5, 2#8), (6, 3#8)] := by decide

/-! The program file of S7 (R81). -/

theorem test_program_text_S7 :
    (match State.loadText ["# LDI R0,0".toList, "10000010 # LDI".toList, "00000000 # R0".toList, [],
        "00000101".toList] with
      | .ok s => s.mem == [(0, 0x82#8), (2, 5#8)] && s.reg 7 == 244
      | .error _ => false) = true := by decide
theorem test_program_text_bad_line :
    State.loadText ["1000001".toList] = .error .badLine ∧
      State.loadText ["10000012".toList] = .error .badLine := by exact ⟨rfl, rfl⟩

/-! ALU vectors. -/

theorem test_add_wraps_A1 :
    after (step (start 0 #v[200, 100, 0, 0, 0, 0, 0, 244] [0xA0, 0, 1])) (fun t =>
      t.reg 0 == 44 && t.reg 1 == 100 && t.pc == 3) = true := by decide
theorem test_add_same_register_A3 :
    after (step (start 0 #v[200, 0, 0, 0, 0, 0, 0, 244] [0xA0, 0, 0])) (fun t => t.reg 0 == 144) = true := by decide
theorem test_mul_A6 :
    after (step (start 0 #v[200, 3, 0, 0, 0, 0, 0, 244] [0xA2, 0, 1])) (fun t => t.reg 0 == 88) = true := by decide
theorem test_mul_A8 :
    after (step (start 0 #v[255, 255, 0, 0, 0, 0, 0, 244] [0xA2, 0, 1])) (fun t => t.reg 0 == 1) = true := by decide
theorem test_cmp_unsigned_A12 :
    after (step (start 0 #v[200, 100, 0, 0, 0, 0, 0, 244] [0xA7, 0, 1])) (fun t =>
      t.fl == 1 && t.reg 0 == 200 && t.pc == 3) = true := by decide
theorem test_cmp_sticky_A17 :
    after (step { start 0 #v[1, 2, 0, 0, 0, 0, 0, 244] [0xA7, 0, 1] with fl := 0xF8 }) (fun t =>
      t.fl == 0xFC) = true := by decide
theorem test_and_A18 :
    after (step (start 0 #v[0xCC, 0xAA, 0, 0, 0, 0, 0, 244] [0xA8, 0, 1])) (fun t => t.reg 0 == 0x88) = true := by
  decide
theorem test_or_A19 :
    after (step (start 0 #v[0xCC, 0xAA, 0, 0, 0, 0, 0, 244] [0xAA, 0, 1])) (fun t => t.reg 0 == 0xEE) = true := by
  decide
theorem test_xor_A20 :
    after (step (start 0 #v[0xCC, 0xAA, 0, 0, 0, 0, 0, 244] [0xAB, 0, 1])) (fun t => t.reg 0 == 0x66) = true := by
  decide
theorem test_xor_clears_A21 :
    after (step (start 0 #v[0, 0, 0, 0x5A, 0, 0, 0, 244] [0xAB, 3, 3])) (fun t => t.reg 3 == 0) = true := by decide
theorem test_not_A22 :
    after (step (start 0 #v[0, 0, 0, 0, 0, 0, 0, 244] [0x69, 0])) (fun t => t.reg 0 == 255 && t.pc == 2) = true := by
  decide
theorem test_not_A23 :
    after (step (start 0 #v[0xA5, 0, 0, 0, 0, 0, 0, 244] [0x69, 0])) (fun t => t.reg 0 == 0x5A) = true := by decide
theorem test_shl_loses_top_A25 :
    after (step (start 0 #v[0x81, 1, 0, 0, 0, 0, 0, 244] [0xAC, 0, 1])) (fun t => t.reg 0 == 2) = true := by decide
theorem test_shl_by_200_A28 :
    after (step (start 0 #v[255, 200, 0, 0, 0, 0, 0, 244] [0xAC, 0, 1])) (fun t => t.reg 0 == 0) = true := by decide
theorem test_shr_logical_A31 :
    after (step (start 0 #v[0x81, 1, 0, 0, 0, 0, 0, 244] [0xAD, 0, 1])) (fun t => t.reg 0 == 0x40) = true := by decide
theorem test_shr_by_8_A33 :
    after (step (start 0 #v[0x81, 8, 0, 0, 0, 0, 0, 244] [0xAD, 0, 1])) (fun t => t.reg 0 == 0) = true := by decide
theorem test_mod_A35 :
    after (step (start 0 #v[200, 7, 0, 0, 0, 0, 0, 244] [0xA4, 0, 1])) (fun t => t.reg 0 == 4) = true := by decide
theorem test_mod_by_zero_A40 :
    after (step (start 0 #v[7, 0, 0, 0, 0, 0, 0, 244] [0xA4, 0, 1])) (fun t =>
      t.run == .faulted .moduloByZero && t.reg 0 == 7 && t.pc == 0) = true := by decide

/-! Immediate, store and output vectors. -/

theorem test_ldi_moves_sp_M3 :
    after (step (start 0 #v[0, 0, 0, 0, 0, 0, 0, 244] [0x82, 7, 0x64])) (fun t =>
      t.reg 7 == 100 && t.pc == 3) = true := by decide
theorem test_ldi_immediate_unchecked_M16 :
    after (step (start 0 #v[0, 0, 0, 0, 0, 0, 0, 244] [0x82, 0, 8])) (fun t =>
      t.reg 0 == 8 && t.run == .running) = true := by decide
theorem test_addi_wraps_M7 :
    after (step (start 0 #v[250, 0, 0, 0, 0, 0, 0, 244] [0x88, 0, 10])) (fun t => t.reg 0 == 4) = true := by decide
theorem test_addi_unsigned_M8 :
    after (step (start 0 #v[5, 0, 0, 0, 0, 0, 0, 244] [0x88, 0, 0xFF])) (fun t =>
      t.reg 0 == 4 && t.fl == 0) = true := by decide
theorem test_st_M11 :
    after (step (start 0 #v[248, 20, 0, 0, 0, 0, 0, 244] [0x84, 0, 1])) (fun t =>
      t.mem.get 248 == 20 && t.mem.get 20 == 0 && t.pc == 3) = true := by decide
theorem test_st_same_register_M12 :
    after (step (start 0 #v[33, 0, 0, 0, 0, 0, 0, 244] [0x84, 0, 0])) (fun t => t.mem.get 33 == 33) = true := by decide
theorem test_prn_O2 :
    after (step { start 0 #v[0, 0, 0, 0, 0, 0, 0, 244] [0x47, 7] with prn := [5] }) (fun t =>
      t.prn == [5, 244] && t.hint == [] && t.pc == 2) = true := by decide
theorem test_pra_O3 :
    after (step (start 0 #v[72, 0, 0, 0, 0, 0, 0, 244] [0x48, 0])) (fun t =>
      t.hintText == ['H'] && t.prn == [] && t.pc == 2) = true := by decide
theorem test_pra_code_point_O5 :
    after (step (start 0 #v[233, 0, 0, 0, 0, 0, 0, 244] [0x48, 0])) (fun t => t.hintText == ['é']) = true := by decide

/-! Stack and control-transfer vectors. -/

theorem test_push_sp_K4 :
    after (step (start 0 #v[0, 0, 0, 0, 0, 0, 0, 244] [0x45, 7])) (fun t =>
      t.mem.get 243 == 244 && t.reg 7 == 243 && t.pc == 2) = true := by decide
theorem test_push_faults_K7 :
    after (step (start 0 #v[9, 0, 0, 0, 0, 0, 0, 0] [0x45, 0])) (fun t =>
      t.run == .faulted .stackPointerOutOfRange && t.reg 7 == 0 && t.mem.get 255 == 0) = true := by decide
theorem test_pop_sp_K5 :
    after (step (poke (start 0 #v[0, 0, 0, 0, 0, 0, 0, 243] [0x46, 7]) 243 [100])) (fun t =>
      t.reg 7 == 100 && t.pc == 2) = true := by decide
theorem test_pop_last_legal_K10 :
    after (step (poke (start 0 #v[0, 0, 0, 0, 0, 0, 0, 254] [0x46, 0]) 254 [3])) (fun t =>
      t.reg 0 == 3 && t.reg 7 == 255 && t.mem.get 254 == 3) = true := by decide
theorem test_call_sp_K6 :
    after (step (start 10 #v[0, 0, 0, 0, 0, 0, 0, 244] [0x50, 7])) (fun t =>
      t.mem.get 243 == 12 && t.reg 7 == 243 && t.pc == 244) = true := by decide
theorem test_call_faults_K12 :
    after (step (start 254 #v[0, 0, 0, 0, 0, 0, 0, 244] [0x50, 0])) (fun t =>
      t.run == .faulted .returnAddressOutOfRange && t.reg 7 == 244 && t.pc == 254) = true := by decide
theorem test_ret_K14 :
    after (step (poke (start 30 #v[0, 0, 0, 0, 0, 0, 0, 242] [0x11]) 242 [13])) (fun t =>
      t.pc == 13 && t.reg 7 == 243) = true := by decide
theorem test_ret_at_255_F8 :
    after (step (poke (start 255 #v[0, 0, 0, 0, 0, 0, 0, 243] [0x11]) 243 [5])) (fun t => t.pc == 5) = true := by decide
theorem test_jmp_K17 :
    after (step (start 0 #v[0, 0, 255, 0, 0, 0, 0, 244] [0x54, 2])) (fun t => t.pc == 255) = true := by decide
theorem test_jmp_operand_beyond_K24 :
    after (step (start 255 #v[0, 0, 0, 0, 0, 0, 0, 244] [0x54])) (fun t =>
      t.run == .faulted .operandAddressOutOfRange && t.pc == 255) = true := by decide
theorem test_jeq_taken_K18 :
    after (step { start 10 #v[0, 0, 40, 0, 0, 0, 0, 244] [0x55, 2] with fl := 2 }) (fun t =>
      t.pc == 40 && t.fl == 2) = true := by decide
theorem test_jeq_not_taken_K19 :
    after (step { start 10 #v[0, 0, 40, 0, 0, 0, 0, 244] [0x55, 2] with fl := 5 }) (fun t => t.pc == 12) = true := by
  decide
theorem test_jne_taken_K21 :
    after (step { start 17 #v[0, 0, 9, 0, 0, 0, 0, 244] [0x56, 2] with fl := 4 }) (fun t => t.pc == 9) = true := by
  decide
theorem test_jne_not_taken_K23 :
    after (step { start 17 #v[0, 0, 9, 0, 0, 0, 0, 244] [0x56, 2] with fl := 6 }) (fun t => t.pc == 19) = true := by
  decide
theorem test_push_wraps_K7w :
    (match pushWith .wrap 9 (start 0 #v[9, 0, 0, 0, 0, 0, 0, 0] []) with
      | .ok _ t => t.mem.get 255 == 9 && t.reg 7 == 255
      | .raised _ => false) = true := by decide
theorem test_pop_wraps_K9w :
    (match popWith .wrap (poke (start 0 #v[0, 0, 0, 0, 0, 0, 0, 255] []) 255 [3]) with
      | .ok v t => v == 3 && t.reg 7 == 0
      | .raised _ => false) = true := by decide

/-! System vectors. -/

theorem test_hlt_at_255_H2 :
    after (step (start 255 #v[0, 0, 0, 0, 0, 0, 0, 244] [0x01])) (fun t =>
      t.run == .halted && t.pc == 255) = true := by decide
theorem test_hlt_after_masked_tick_H3 :
    after (step (ticked (start 8 #v[0, 0, 0, 0, 0, 0, 0, 244] [0x01]))) (fun t =>
      t.run == .halted && t.reg 6 == 1) = true := by decide
theorem test_iret_I3 :
    after (step (poke (start 0 #v[0, 0, 0, 0, 0, 0, 0, 100] [0x13]) 100 [9, 8, 7, 6, 5, 4, 3, 0xFF, 200])) (fun t =>
      t.regs == #v[3, 4, 5, 6, 7, 8, 9, 109] && t.fl == 0xFF && t.pc == 200) = true := by decide
theorem test_iret_highest_frame_I5 :
    after (step (poke (start 0 #v[0, 0, 0, 0, 0, 0, 0, 246] [0x13]) 246 [1, 2, 3, 4, 5, 6, 7, 2, 60])) (fun t =>
      t.regs == #v[7, 6, 5, 4, 3, 2, 1, 255] && t.fl == 2 && t.pc == 60) = true := by decide

/-! The cycle and interrupts. -/

theorem test_pc_beyond_memory_F4 :
    after (step { ticked (start 0 #v[0, 0, 0, 0, 0, 1, 0, 244] []) with pc := 256 }) (fun t =>
      t.run == .faulted .pcOutOfRange && t.reg 6 == 0 && t.pc == 256) = true := by decide
theorem test_ldi_up_to_255_F5 :
    after (step (start 253 #v[0, 0, 0, 0, 0, 0, 0, 244] [0x82, 0, 7])) (fun t =>
      t.reg 0 == 7 && t.pc == 256 && t.run == .running) = true := by decide
theorem test_first_bad_operand_F9 :
    after (step (start 0 #v[0, 0, 0, 0, 0, 0, 0, 244] [0x84, 8, 9])) (fun t =>
      t.diagnostic == some ⟨.invalidRegisterIndex, some 8, some 0, none⟩) = true := by decide
theorem test_address_before_register_F10 :
    after (step (start 254 #v[0, 0, 0, 0, 0, 0, 0, 244] [0xA4, 8])) (fun t =>
      t.run == .faulted .operandAddressOutOfRange) = true := by decide

/-- The state of E2. -/
def e2 : State :=
  poke { start 48 #v[1, 2, 3, 4, 5, 0x81, 0x84, 100] [] with fl := 5 } 255 [0x60]

theorem test_entry_E2 :
    after (step e2) (fun t =>
      t.regs == #v[1, 2, 3, 4, 5, 0x81, 0, 91] && t.pc == 96 && t.fl == 5 &&
        t.mem.bytesFrom 91 9 == [0, 129, 5, 4, 3, 2, 1, 5, 48]) = true := by decide
theorem test_tick_overwrites_status_E3 :
    after (step (poke (ticked e2) 248 [0x70])) (fun t => t.pc == 112 && t.reg 6 == 0) = true := by decide
theorem test_masked_tick_runs_instruction_E4 :
    after (step (ticked (start 0 #v[0, 0, 0, 0, 0, 0, 0, 244] [0x47, 6]))) (fun t =>
      t.prn == [1] && t.reg 6 == 1) = true := by decide
theorem test_entry_faults_E8 :
    after (step (ticked (start 20 #v[0, 0, 0, 0, 0, 1, 0, 8] []))) (fun t =>
      t.run == .faulted .stackPointerOutOfRange) = true := by decide
theorem test_entry_last_legal_E9 :
    after (step (ticked { start 6 #v[0, 0, 0, 0, 0, 1, 0, 9] [] with fl := 7 })) (fun t =>
      t.mem.bytesFrom 0 9 == [0, 1, 0, 0, 0, 0, 0, 7, 6] && t.reg 7 == 0) = true := by decide

/-! Witnesses: for each statement with hypotheses, a state and operands that meet them together, at the ends of
its ranges. The unused third byte of memory after an instruction is 0. -/

/-- A running state at `pc` with these registers and no enabled interrupt pending, about to fetch `bytes`. -/
abbrev Fetches (s : State) : Prop :=
  s.run = .running ∧ s.pc ≤ 255 ∧ pendingInterrupt (timerCheck s) = none

/-- Registers all 0 but the stack pointer. -/
def withSp (sp : Byte) : Vector Byte 8 :=
  #v[0, 0, 0, 0, 0, 0, 0, sp]

theorem witness_DecodeOfEncode : defaultAluOpcodeMap.Legal := by decide
theorem witness_DecodedBytesAreTheEncoding :
    decodeWith defaultAluOpcodeMap [0x84, 1, 2, 0x01] = .ok (.st 1 2, [0x01]) := by rfl
theorem witness_UnrecognizedIffNotInTable : (0x00#8 ∉ recognizedOpcodes) ∧ (0xAD#8 ∈ recognizedOpcodes) := by decide
theorem witness_TruncatedEncodingIsRejected :
    defaultAluOpcodeMap.Legal ∧ 0 < 1 ∧ 2 < (encodeWith defaultAluOpcodeMap (.st 1 2)).length := by decide
theorem witness_StepRunsDecodedInstruction :
    Fetches (start 0 (withSp 244) [0x82, 1, 9]) ∧
      decode ((start 0 (withSp 244) [0x82, 1, 9]).mem.bytesFrom 0 3) = .ok (.ldi 1 9, []) := by
  exact ⟨by decide, rfl⟩
theorem witness_StepRunsDecodedInstruction_at_255 :
    Fetches (start 255 (withSp 244) [0x11]) ∧
      decode ((start 255 (withSp 244) [0x11]).mem.bytesFrom 255 3) = .ok (.ret, []) := by
  exact ⟨by decide, rfl⟩
theorem witness_TimerCheckWritesStatus :
    (start 0 (withSp 244) []).ticks = [false] ∧ (ticked (start 0 (withSp 244) [])).tick = true := by decide
theorem witness_PcBeyondMemoryFaults :
    (start 256 (withSp 244) []).run = .running ∧ 255 < (start 256 (withSp 244) []).pc := by decide
theorem witness_EndedRunStays :
    ({ State.reset with run := .halted } : State).run ≠ .running ∧
      ({ State.reset with run := .faulted .moduloByZero } : State).run ≠ .running := by decide
theorem witness_UnrecognizedOpcodeFaults :
    Fetches (start 255 (withSp 244) [0xFF]) ∧
      (start 255 (withSp 244) [0xFF]).mem.get 255 ∉ recognizedOpcodes := by decide
theorem witness_OperandBeyondMemoryFaults :
    Fetches (start 254 (withSp 244) [0x82, 0]) ∧
      lookupOp defaultAluOpcodeMap ((start 254 (withSp 244) [0x82, 0]).mem.get 254) = some .ldi ∧
      255 < 254 + (Op.ldi.width - 1) := by decide
theorem witness_OperandBeyondMemoryFaults_at_255 :
    Fetches (start 255 (withSp 244) [0x47]) ∧
      lookupOp defaultAluOpcodeMap ((start 255 (withSp 244) [0x47]).mem.get 255) = some .prn ∧
      255 < 255 + (Op.prn.width - 1) := by decide
theorem witness_InvalidRegisterByteFaults : (Instr.cmp 7 8).wellFormed = false := by decide
theorem witness_ModResult : (start 0 #v[5, 1, 0, 0, 0, 0, 0, 244] []).reg 1 ≠ 0#8 := by decide
theorem witness_ModByZeroFaults : (start 0 #v[5, 0, 0, 0, 0, 0, 0, 244] []).reg 1 = 0#8 := by decide
theorem witness_LdiThenPrnPrintsImmediate :
    ∃ t, exec (.ldi (regByte 7) 255) State.reset = .next t ∧ t.reg 7 = 255#8 := ⟨_, rfl, by decide⟩
theorem witness_PushResult :
    (start 0 (withSp 1) []).reg 7 ≠ 0#8 ∧ (start 0 (withSp 255) []).reg 7 ≠ 0#8 := by decide
theorem witness_PopResult :
    (start 0 (withSp 0) []).reg 7 ≠ 255#8 ∧ (start 0 (withSp 254) []).reg 7 ≠ 255#8 ∧ (3 : Reg) ≠ 7 := by decide
theorem witness_CallResult :
    (start 253 (withSp 1) []).pc + 2 ≤ 255 ∧ (start 253 (withSp 1) []).reg 7 ≠ 0#8 := by decide
theorem witness_RetResult :
    (start 0 (withSp 0) []).reg 7 ≠ 255#8 ∧ (start 0 (withSp 254) []).reg 7 ≠ 255#8 := by decide
theorem witness_StackFaults_sp_zero :
    (start 253 (withSp 0) []).reg 7 = 0#8 ∧ (start 253 (withSp 0) []).pc + 2 ≤ 255 := by decide
theorem witness_StackFaults_sp_top : (start 0 (withSp 255) []).reg 7 = 255#8 := by decide
theorem witness_StackFaults_return_address : 255 < (start 254 (withSp 0) []).pc + 2 := by decide
theorem witness_WrapPolicyStack :
    (start 0 (withSp 0) []).reg 7 = 0#8 ∧ (start 0 (withSp 255) []).reg 7 = 255#8 := by decide
theorem witness_PushThenPopMoves : (start 0 (withSp 1) []).reg 7 ≠ 0#8 ∧ (6 : Reg) ≠ 7 := by decide
/-- With `u` the state the CALL leaves. -/
theorem witness_CallThenRetReturns :
    (start 253 (withSp 1) []).pc + 2 ≤ 255 ∧ (start 253 (withSp 1) []).reg 7 ≠ 0#8 ∧
      ∃ t, exec (.call (regByte 2)) (start 253 (withSp 1) []) = .next t ∧ t.reg 7 = 0#8 := by
  exact ⟨by decide, by decide, _, rfl, by decide⟩
theorem witness_IretResult : ((start 0 (withSp 246) []).reg 7).toNat ≤ 246 ∧ (5 : Reg) ≠ 7 := by decide
theorem witness_IretStackFault : 247 ≤ ((start 0 (withSp 247) []).reg 7).toNat := by decide
theorem witness_LowestEnabledPendingWins :
    pendingInterrupt (start 0 #v[0, 0, 0, 0, 0, 6, 6, 244] []) = some 1 ∧
      pendingInterrupt (start 0 #v[0, 0, 0, 0, 0, 0x80, 0xC0, 244] []) = some 7 ∧
      pendingInterrupt (start 0 #v[0, 0, 0, 0, 0, 2, 1, 244] []) = none := by decide
theorem witness_TickRequestsInterruptZero :
    (ticked (start 0 #v[0, 0, 0, 0, 0, 1, 0x84, 244] [])).tick = true ∧
      ((ticked (start 0 #v[0, 0, 0, 0, 0, 1, 0x84, 244] [])).reg 5).getLsbD 0 = true ∧
      ((ticked (start 0 #v[0, 0, 0, 0, 0, 0xFE, 0x84, 244] [])).reg 5).getLsbD 0 = false := by decide
theorem witness_ServiceReplacesFetch :
    e2.run = .running ∧ e2.pc ≤ 255 ∧ pendingInterrupt (timerCheck e2) = some 7 := by decide
/-- ADDI R6, 4 at the last place from which the next `pc` is in range. -/
theorem witness_SoftwareRaisedInterrupt_any :
    ∃ t, exec (.addi (regByte 6) 4) (start 252 #v[0, 0, 0, 0, 0, 0x84, 0x80, 244] []) = .next t ∧
      t.run = .running ∧ t.pc ≤ 255 ∧ t.tick = false ∧ t.reg 5 &&& t.reg 6 ≠ 0#8 := ⟨_, rfl, by decide⟩
/-- M5. -/
theorem witness_SoftwareRaisedInterrupt :
    ∃ t, exec (.ldi (regByte 6) 4) (start 252 #v[0, 0, 0, 0, 0, 4, 0, 244] [0x82, 6, 4]) = .next t ∧
      (start 252 #v[0, 0, 0, 0, 0, 4, 0, 244] [0x82, 6, 4]).run = .running ∧ 252 + 3 ≤ 255 ∧ t.tick = false ∧
      (start 252 #v[0, 0, 0, 0, 0, 4, 0, 244] [0x82, 6, 4]).reg 5 &&& 4 ≠ 0#8 := ⟨_, rfl, by decide⟩
theorem witness_InterruptEntryFrame :
    (start 255 (withSp 9) []).pc ≤ 255 ∧ 9 ≤ ((start 255 (withSp 9) []).reg 7).toNat := by decide
/-- SP 249 and 250 put the pushed `pc` and `fl` on vector 0, SP 251 neither: the three cases of the new `pc`. -/
theorem witness_InterruptEntryFrame_vector :
    248 + 0 = ((start 0 (withSp 249) []).reg 7).toNat - 1 ∧
      248 + 0 = ((start 0 (withSp 250) []).reg 7).toNat - 2 ∧
      248 + 0 ≠ ((start 0 (withSp 251) []).reg 7).toNat - 1 ∧
      248 + 0 ≠ ((start 0 (withSp 251) []).reg 7).toNat - 2 := by decide
theorem witness_InterruptEntryStackFault :
    ((start 0 (withSp 8) []).reg 7).toNat < 9 ∧ ((start 0 (withSp 0) []).reg 7).toNat < 9 := by decide
/-- With `u` the state entry leaves. -/
theorem witness_IretUndoesInterruptEntry :
    (start 255 (withSp 9) []).pc ≤ 255 ∧ 9 ≤ ((start 255 (withSp 9) []).reg 7).toNat ∧
      ∃ t, interruptEntry 0 (start 255 (withSp 9) []) = .ok () t ∧ t.reg 7 = 0#8 := by
  exact ⟨by decide, by decide, _, rfl, by decide⟩
theorem witness_FlagWritersAndReaders :
    (∀ a b, Instr.jeq 1 ≠ .cmp a b) ∧ Instr.jeq 1 ≠ .iret ∧
      ((∃ a, Instr.jeq 1 = .jeq a ∨ Instr.jeq 1 = .jne a) → (0xFD#8).getLsbD 1 = State.reset.fl.getLsbD 1) := by
  exact ⟨nofun, nofun, fun _ => rfl⟩

/-- At HLT with all flags set. -/
def atHlt : State :=
  { start 8 (withSp 244) [0x01] with fl := 7 }

/-- At MOD by zero. -/
def atModZero : State :=
  start 6 #v[7, 0, 0, 0, 0, 0, 0, 244] [0xA4, 0, 1]

theorem witness_OnlyIretClearsFlags :
    step atHlt = .next { timerCheck atHlt with run := .halted } ∧ (∀ u, ¬Runs atHlt .iret u) ∧
      atHlt.fl.getLsbD 0 = true ∧ atHlt.fl.getLsbD 2 = true := by
  exact ⟨rfl, fun _ h => (nomatch show Prepared.execute .hlt (timerCheck atHlt) = _ from h), by decide, by decide⟩
theorem witness_HaltsOnlyByHlt :
    atHlt.run = .running ∧ step atHlt = .next { timerCheck atHlt with run := .halted } := by
  exact ⟨rfl, rfl⟩
theorem witness_FaultChangesOnlyRun :
    atModZero.run = .running ∧ step atModZero = .next ((timerCheck atModZero).raise .moduloByZero) ∧
      (∀ u, ¬Runs atModZero .iret u) ∧ atModZero.pc ≤ 255 ∧
      pendingInterrupt (timerCheck atModZero) = none := by
  refine ⟨rfl, rfl, fun _ h => ?_, by decide, by decide⟩
  exact nomatch show Prepared.execute (.mod 0 1) (timerCheck atModZero) = _ from h
theorem witness_FaultChangesOnlyRun_pc_256 :
    (start 256 (withSp 244) []).run = .running ∧
      step (start 256 (withSp 244) []) = .next ((start 256 (withSp 244) []).raise .pcOutOfRange) := by
  exact ⟨rfl, rfl⟩
/-- At the bound 256, which the next state keeps. -/
theorem witness_StepKeepsInvariant :
    (start 253 (withSp 244) [0x82, 0, 7]).Inv ∧
      after (step (start 253 (withSp 244) [0x82, 0, 7])) (fun t => t.pc == 256) = true := by
  exact ⟨⟨by decide, by decide⟩, by decide⟩
theorem witness_LoadPlacesImage :
    (List.replicate 256 1#8).length ≤ 256 ∧ 256 < (List.replicate 257 1#8).length := by
  rw [List.length_replicate, List.length_replicate]; decide
theorem witness_ProgramTextPlacesLiterals :
    (∀ l ∈ [(['\t'], 0x82#8, [' ', '#', 'L']), ([], 0xFF#8, [])],
      (∀ c ∈ l.1, isBlank c = true) ∧ ∀ c ∈ l.2.2.takeWhile (· != '#'), isBlank c = true) ∧
      (List.replicate 256 ([' '], 0x82#8, ['\t'])).length ≤ 256 ∧
      256 < (List.replicate 257 ([' '], 0x82#8, ['\t'])).length := by
  refine ⟨?_, Nat.le_of_eq List.length_replicate, by rw [List.length_replicate]; decide⟩
  simp [List.takeWhile, isBlank]
/-- A line of two characters before its comment is neither skipped nor a literal. -/
theorem witness_ProgramTextPlacesLiterals_bad_line :
    (∃ c ∈ ['1', ' ', '#', '0'].takeWhile (· != '#'), isBlank c = false) ∧
      ∀ (b : Byte) (pre post : List Char),
        ['1', ' ', '#', '0'].takeWhile (· != '#') ≠ pre ++ byteLiteral b ++ post := by
  refine ⟨⟨'1', by simp [List.takeWhile], by decide⟩, fun b pre post h => ?_⟩
  have := congrArg List.length h
  simp [List.takeWhile, byteLiteral] at this
  omega
/-- M13. -/
theorem witness_StoreIsSeenByNextFetch :
    ∃ t, exec (.st (regByte 0) (regByte 1)) (start 10 #v[13, 1, 0, 0, 0, 0, 0, 244] [0x84, 0, 1]) = .next t ∧
      (start 10 #v[13, 1, 0, 0, 0, 0, 0, 244] [0x84, 0, 1]).run = .running ∧
      ((start 10 #v[13, 1, 0, 0, 0, 0, 0, 244] [0x84, 0, 1]).reg 0).toNat = 10 + 3 ∧
      pendingInterrupt (timerCheck t) = none := ⟨_, rfl, by decide⟩
/-- The last place a store can reach: PRN's opcode at 255, whose operand does not exist. -/
theorem witness_StoreIsSeenByNextFetch_at_255 :
    ∃ t, exec (.st (regByte 0) (regByte 1)) (start 252 #v[255, 0x47, 0, 0, 0, 0, 0, 244] [0x84, 0, 1]) = .next t ∧
      (start 252 #v[255, 0x47, 0, 0, 0, 0, 0, 244] [0x84, 0, 1]).run = .running ∧
      ((start 252 #v[255, 0x47, 0, 0, 0, 0, 0, 244] [0x84, 0, 1]).reg 0).toNat = 252 + 3 ∧
      pendingInterrupt (timerCheck t) = none := ⟨_, rfl, by decide⟩
theorem witness_DiagnosticRecords_opcode :
    Fetches (start 3 (withSp 244) [0x00]) ∧ (start 3 (withSp 244) [0x00]).mem.get 3 ∉ recognizedOpcodes := by decide
theorem witness_DiagnosticRecords_register :
    Fetches (start 0 (withSp 244) [0x84, 8, 9]) ∧
      decode ((start 0 (withSp 244) [0x84, 8, 9]).mem.bytesFrom 0 3) = .ok (.st 8 9, []) ∧
      (Instr.st 8 9).wellFormed = false := by
  exact ⟨by decide, rfl, by decide⟩
theorem witness_FrameOfRegisterWriters :
    Instr.mod 7 1 ∈ [Instr.ldi 7 1, .addi 7 1, .add 7 1, .mul 7 1, .mod 7 1, .and 7 1, .not 7, .or 7 1, .xor 7 1,
      .shl 7 1, .shr 7 1] ∧ ∃ t, exec (.mod 7 1) State.reset = .next t := by
  exact ⟨by decide, _, rfl⟩
theorem witness_FrameOfCompareOutputJumpHalt :
    Instr.jne 7 ∈ [Instr.cmp 7 8, .prn 7, .pra 7, .jmp 7, .jeq 7, .jne 7, .hlt] ∧
      ∃ t, exec (.jne 7) State.reset = .next t := by
  exact ⟨by decide, _, rfl⟩
theorem witness_FrameOfStores :
    (∃ t, exec (.st 7 0) State.reset = .next t) ∧ (∃ t, exec (.push 7) State.reset = .next t) ∧
      (∃ t, exec (.call 7) State.reset = .next t) ∧ regOf 7 = some 7 ∧ regOf 8 = none ∧
      (storeAddress State.reset 7).toNat = 244 ∧ (pushAddress State.reset).toNat = 243 := by
  exact ⟨⟨_, rfl⟩, ⟨_, rfl⟩, ⟨_, rfl⟩, by decide⟩
theorem witness_FrameOfPopAndRet :
    Instr.ret ∈ [Instr.pop 7, .ret] ∧ (∃ t, exec .ret State.reset = .next t) ∧
      (∃ t, exec (.pop 7) State.reset = .next t) := by
  exact ⟨by decide, ⟨_, rfl⟩, ⟨_, rfl⟩⟩
theorem witness_FrameOfIret :
    (∃ t, exec .iret (start 0 (withSp 246) []) = .next t) ∧ (∃ t, exec .iret State.reset = .next t) := by
  exact ⟨⟨_, rfl⟩, ⟨_, rfl⟩⟩

end Sys2Proof.Tests
end

/-! O46. The outputs are written only by appending, so putting earlier outputs before both of them commutes with
every operation of a cycle. A cycle from any outputs is then the cycle from empty outputs with those outputs put before
what it produced: that is the whole of "grows at the end" and "is not read" (R33, R34, R132). -/

namespace Sys2Proof.Machine

/-- The state with `h` put before the HintBuffer and `p` before the print stream. -/
def State.prependOutputs (h p : List Byte) (s : State) : State :=
  { s with hint := h ++ s.hint, prn := p ++ s.prn }

/-- The same for the state an operation ends in. -/
def Ran.prependOutputs {α : Type} (h p : List Byte) : Ran α → Ran α
  | .ok v s => .ok v (s.prependOutputs h p)
  | .raised s => .raised (s.prependOutputs h p)

/-- The same for what steps 0 to 6 of a cycle come to. -/
def Prepared.prependOutputs (h p : List Byte) : Prepared → Prepared
  | .ended s => .ended (s.prependOutputs h p)
  | .execute i s => .execute i (s.prependOutputs h p)

section PrependOutputs
variable (h p : List Byte) (s : State)

/-! The outputs' own updates; every other update and every read of the state commutes by `rfl`. -/

theorem appendHint_prependOutputs (v : Byte) :
    (s.prependOutputs h p).appendHint v = (s.appendHint v).prependOutputs h p :=
  congrArg (fun l => { s.prependOutputs h p with hint := l }) (List.append_assoc h s.hint [v])

theorem appendPrn_prependOutputs (v : Byte) :
    (s.prependOutputs h p).appendPrn v = (s.appendPrn v).prependOutputs h p :=
  congrArg (fun l => { s.prependOutputs h p with prn := l }) (List.append_assoc p s.prn [v])

/-- Outputs put before empty ones are the outputs. -/
theorem prependOutputs_empty :
    ({ s with hint := [], prn := [] } : State).prependOutputs h p = { s with hint := h, prn := p } := by
  simp only [State.prependOutputs, List.append_nil]

/-! The shared operations. -/

theorem final_prependOutputs {α : Type} (r : Ran α) : (r.prependOutputs h p).final = r.final.prependOutputs h p := by
  cases r <;> rfl

theorem andThen_prependOutputs {α β : Type} (r : Ran α) (k : α → State → Ran β)
    (hk : ∀ v t, k v (t.prependOutputs h p) = (k v t).prependOutputs h p) :
    (r.prependOutputs h p).andThen k = (r.andThen k).prependOutputs h p := by
  cases r with
  | ok v t => exact hk v t
  | raised t => rfl

theorem withReg_prependOutputs (a : Byte) {k' k : Reg → Ran Unit} (hk : ∀ r, k' r = (k r).prependOutputs h p) :
    withReg a (s.prependOutputs h p) k' = (withReg a s k).prependOutputs h p := by
  unfold withReg
  cases regOf a with
  | some r => exact hk r
  | none => rfl

theorem withRegs_prependOutputs (a b : Byte) {k' k : Reg → Reg → Ran Unit}
    (hk : ∀ q r, k' q r = (k q r).prependOutputs h p) :
    withRegs a b (s.prependOutputs h p) k' = (withRegs a b s k).prependOutputs h p :=
  withReg_prependOutputs h p s a fun q => withReg_prependOutputs h p s b (hk q)

theorem ite_prependOutputs {α : Type} (c : Prop) [Decidable c] {r' r q' q : Ran α}
    (hr : r' = r.prependOutputs h p) (hq : q' = q.prependOutputs h p) :
    (if c then r' else q') = (if c then r else q).prependOutputs h p := by
  rw [hr, hq, apply_ite (Ran.prependOutputs h p)]

theorem push_prependOutputs (v : Byte) : push v (s.prependOutputs h p) = (push v s).prependOutputs h p :=
  ite_prependOutputs h p _ rfl rfl

theorem pop_prependOutputs : pop (s.prependOutputs h p) = (pop s).prependOutputs h p :=
  ite_prependOutputs h p _ rfl rfl

theorem push_andThen_prependOutputs {β : Type} (v : Byte) (k : Unit → State → Ran β)
    (hk : ∀ u t, k u (t.prependOutputs h p) = (k u t).prependOutputs h p) :
    (push v (s.prependOutputs h p)).andThen k = ((push v s).andThen k).prependOutputs h p := by
  rw [push_prependOutputs, andThen_prependOutputs h p _ k hk]

theorem pop_andThen_prependOutputs {β : Type} (k : Byte → State → Ran β)
    (hk : ∀ v t, k v (t.prependOutputs h p) = (k v t).prependOutputs h p) :
    (pop (s.prependOutputs h p)).andThen k = ((pop s).andThen k).prependOutputs h p := by
  rw [pop_prependOutputs, andThen_prependOutputs h p _ k hk]

theorem pushRegs_prependOutputs (rs : List Reg) :
    pushRegs rs (s.prependOutputs h p) = (pushRegs rs s).prependOutputs h p := by
  induction rs generalizing s with
  | nil => rfl
  | cons r rs ih => exact push_andThen_prependOutputs h p s _ _ fun _ t => ih t

theorem popRegs_prependOutputs (rs : List Reg) :
    popRegs rs (s.prependOutputs h p) = (popRegs rs s).prependOutputs h p := by
  induction rs generalizing s with
  | nil => rfl
  | cons r rs ih => exact pop_andThen_prependOutputs h p s _ fun v t => ih (t.setReg r v)

/-- Taking an interrupt neither reads nor writes the outputs (R179). -/
theorem interruptEntry_prependOutputs (i : Fin 8) :
    interruptEntry i (s.prependOutputs h p) = (interruptEntry i s).prependOutputs h p := by
  refine push_andThen_prependOutputs h p (s.setReg 6 0#8) _ _ fun _ s1 => ?_
  refine push_andThen_prependOutputs h p s1 _ _ fun _ s2 => ?_
  rw [pushRegs_prependOutputs]
  exact andThen_prependOutputs h p _ _ fun _ _ => rfl

/-- Returning from one neither reads nor writes the outputs (R161). -/
theorem interruptReturn_prependOutputs :
    interruptReturn (s.prependOutputs h p) = (interruptReturn s).prependOutputs h p := by
  rw [interruptReturn, popRegs_prependOutputs]
  refine andThen_prependOutputs h p _ _ fun _ s1 => ?_
  refine pop_andThen_prependOutputs h p s1 _ fun f s2 => ?_
  exact pop_andThen_prependOutputs h p (s2.setFl f) _ fun _ _ => rfl

/-! The cycle. -/

theorem pendingInterrupt_prependOutputs : pendingInterrupt (s.prependOutputs h p) = pendingInterrupt s := rfl

theorem fetch_prependOutputs : fetch (s.prependOutputs h p) = fetch s := rfl

theorem equalFlag_prependOutputs : (s.prependOutputs h p).equalFlag = s.equalFlag := rfl

theorem timerCheck_prependOutputs : timerCheck (s.prependOutputs h p) = (timerCheck s).prependOutputs h p := rfl

theorem prepareInRange_prependOutputs :
    prepareInRange (s.prependOutputs h p) = (prepareInRange s).prependOutputs h p := by
  unfold prepareInRange
  rw [timerCheck_prependOutputs, pendingInterrupt_prependOutputs, fetch_prependOutputs]
  cases pendingInterrupt (timerCheck s) with
  | some i => exact congrArg Prepared.ended (by rw [interruptEntry_prependOutputs, final_prependOutputs])
  | none => cases fetch (timerCheck s) <;> rfl

/-- Steps 0 to 6 neither read nor write the outputs. -/
theorem prepare_prependOutputs : prepare (s.prependOutputs h p) = (prepare s).prependOutputs h p := by
  have hrun : (s.prependOutputs h p).run = s.run := rfl
  have hpc : (s.prependOutputs h p).pc = s.pc := rfl
  unfold prepare
  rw [hrun, hpc, prepareInRange_prependOutputs]
  cases s.run with
  | halted | faulted c => rfl
  | running =>
    simp only [apply_ite (Prepared.prependOutputs h p)]
    rfl

variable {s} {t : State}

theorem outcome_prependOutputs {r' r : Ran Unit} (hr : r' = r.prependOutputs h p) (ht : r.outcome = .next t) :
    r'.outcome = .next (t.prependOutputs h p) := by
  cases ht
  rw [hr, Ran.outcome, final_prependOutputs]

/-- Step 7: an instruction's effect, its appended outputs included, does not depend on the outputs. -/
theorem exec_prependOutputs (i : Instr) (ht : exec i s = .next t) :
    exec i (s.prependOutputs h p) = .next (t.prependOutputs h p) := by
  cases i with
  | hlt => cases ht; rfl
  | prn a =>
    exact outcome_prependOutputs h p (withReg_prependOutputs h p s a fun r =>
      congrArg (fun u => Ran.ok () (u.advance 2)) (appendPrn_prependOutputs h p s (s.reg r))) ht
  | pra a =>
    exact outcome_prependOutputs h p (withReg_prependOutputs h p s a fun r =>
      congrArg (fun u => Ran.ok () (u.advance 2)) (appendHint_prependOutputs h p s (s.reg r))) ht
  | ldi a | addi a | not a | jmp a =>
    exact outcome_prependOutputs h p (withReg_prependOutputs h p s a fun _ => rfl) ht
  | jeq a | jne a =>
    refine outcome_prependOutputs h p (withReg_prependOutputs h p s a fun r => ?_) ht
    rw [equalFlag_prependOutputs]
    cases s.equalFlag <;> rfl
  | add a b | mul a b | and a b | or a b | xor a b | shl a b | shr a b | cmp a b | st a b =>
    exact outcome_prependOutputs h p (withRegs_prependOutputs h p s a b fun _ _ => rfl) ht
  | mod a b =>
    exact outcome_prependOutputs h p (withRegs_prependOutputs h p s a b fun _ _ =>
      ite_prependOutputs h p _ rfl rfl) ht
  | push a =>
    exact outcome_prependOutputs h p (withReg_prependOutputs h p s a fun _ =>
      push_andThen_prependOutputs h p s _ _ fun _ _ => rfl) ht
  | pop a =>
    exact outcome_prependOutputs h p (withReg_prependOutputs h p s a fun _ =>
      pop_andThen_prependOutputs h p s _ fun _ _ => rfl) ht
  | call a =>
    exact outcome_prependOutputs h p (withReg_prependOutputs h p s a fun _ =>
      ite_prependOutputs h p _ rfl (push_andThen_prependOutputs h p s _ _ fun _ _ => rfl)) ht
  | ret => exact outcome_prependOutputs h p (pop_andThen_prependOutputs h p s _ fun _ _ => rfl) ht
  | iret => exact outcome_prependOutputs h p (interruptReturn_prependOutputs h p s) ht

/-- A cycle does the same whatever the outputs hold, and appends the same to them. -/
theorem step_prependOutputs (ht : step s = .next t) : step (s.prependOutputs h p) = .next (t.prependOutputs h p) := by
  unfold step at ht ⊢
  rw [prepare_prependOutputs]
  cases hs : prepare s with
  | ended u =>
    rw [hs] at ht
    cases ht
    rfl
  | execute i u =>
    rw [hs] at ht
    exact exec_prependOutputs h p i ht

end PrependOutputs

/-- Every instruction answers a next state (log 19). -/
theorem exec_next (i : Instr) (s : State) : ∃ t, exec i s = .next t := by
  cases i <;> exact ⟨_, rfl⟩

/-- Every cycle answers a next state (log 18, 19). -/
theorem step_next (s : State) : ∃ t, step s = .next t := by
  unfold step
  cases prepare s with
  | ended t => exact ⟨t, rfl⟩
  | execute i t => exact exec_next i t

/-- Settles O46: the cycle from empty outputs says what is appended; the outputs of `s`, and `h` and `p` alike, are
then put before it. -/
theorem outputsOnlyGrowAndAreNotRead : Obligations.OutputsOnlyGrowAndAreNotRead := by
  intro s h p
  obtain ⟨t, ht⟩ := step_next { s with hint := [], prn := [] }
  have from_outputs : ∀ h p, step { s with hint := h, prn := p } = .next (t.prependOutputs h p) := fun h p => by
    rw [← prependOutputs_empty]
    exact step_prependOutputs h p ht
  exact ⟨t.prependOutputs s.hint s.prn, t.hint, t.prn, from_outputs s.hint s.prn, rfl, rfl, from_outputs h p⟩

end Sys2Proof.Machine

/-! What the rules of the whole machine need of an instruction: that the state `exec` answers has what `exec_final`
says of it, and that it was fetched from its own opcode byte (R72, R95). -/

namespace Sys2Proof.Machine

/-- What holds of some next state holds of the next state, there being only one. -/
theorem next_satisfies {P : State → Prop} {r : Result} {t : State} (h : ∃ u, r = .next u ∧ P u) (ht : r = .next t) :
    P t := by
  obtain ⟨u, hu, hP⟩ := h
  cases hu.symm.trans ht
  exact hP

@[simp] theorem op_assemble (o : Op) (a b : Byte) : (o.assemble a b).op = o := by
  cases o <;> rfl

theorem lookupOp_opcode {m : AluOpcodeMap} {b : Byte} {o : Op} (h : lookupOp m b = some o) : o.opcode m = b := by
  simpa using List.find?_some h

/-- What decodes stands under its own opcode byte (R72). -/
theorem decodeWith_opcode {m : AluOpcodeMap} {b : Byte} {bs rest : List Byte} {i : Instr}
    (h : decodeWith m (b :: bs) = .ok (i, rest)) : i.op.opcode m = b := by
  rw [decodeWith] at h
  cases hl : lookupOp m b with
  | none => rw [hl] at h; cases h
  | some o =>
    rw [hl] at h
    have hop : i.op = o := by
      dsimp only at h
      split at h <;> cases h <;> exact op_assemble o _ _
    rw [hop, lookupOp_opcode hl]

/-- What is fetched has its opcode byte at `pc` (R95). -/
theorem fetch_opcode {s : State} {i : Instr} (h : fetch s = .ok i) :
    s.mem.get s.pc = i.op.opcode defaultAluOpcodeMap := by
  rw [fetch] at h
  cases hd : decode (s.mem.bytesFrom s.pc 3) with
  | error e => rw [hd] at h; cases h
  | ok d =>
    rw [hd] at h
    cases h
    rw [Memory.bytesFrom] at hd
    split at hd
    · exact (decodeWith_opcode hd).symm
    · cases hd

end Sys2Proof.Machine

/-! O45. A flag bit is cleared by no update but `setFl`, and of the operations of a cycle only IRET's return uses it:
CMP only sets bits (R30), and taking an interrupt writes no flag (R179). -/

namespace Sys2Proof.Machine

/-- An instruction other than IRET leaves a set flag bit set (R30, R31). -/
theorem exec_keeps_flag {i : Instr} {s t : State} {k : Nat} (hi : i ≠ .iret) (ht : exec i s = .next t)
    (h : s.fl.getLsbD k = true) : t.fl.getLsbD k = true := by
  refine next_satisfies (P := fun u => u.fl.getLsbD k = true) (exec_final _ i s ?raise ?writeReg ?cmp ?st ?prn ?pra
    ?push ?pop ?call ?ret ?jump ?notTaken ?hlt ?iret) ht
  case cmp =>
    intro a b f _
    rw [advance_fl, orFlag_fl, BitVec.getLsbD_or, h, Bool.true_or]
  case iret => exact fun e => absurd e hi
  all_goals intros; exact h

/-- Taking an interrupt leaves a set flag bit set (R179). -/
theorem interruptEntry_keeps_flag (i : Fin 8) {s : State} {k : Nat} (h : s.fl.getLsbD k = true) :
    (interruptEntry i s).final.fl.getLsbD k = true :=
  interruptEntry_keeps (fun u => u.fl.getLsbD k = true) (fun _ _ h => h) (fun _ _ _ h => h) (fun _ _ _ h => h)
    (fun _ _ h => h) i s h

/-- Settles O45: of the ways a cycle can end, only the run of an instruction can write `fl`, and that one is not
IRET. -/
theorem onlyIretClearsFlags : Obligations.OnlyIretClearsFlags := by
  intro s t k ht hiret h
  refine step_cases (fun u => u.fl.getLsbD k = true) s t ht ?ended ?pcOut ?service ?rejected ?runs
  case service => exact fun i _ _ _ => interruptEntry_keeps_flag i h
  case runs =>
    intro i _ _ _ hruns he
    have hi : i ≠ .iret := fun e => hiret _ (e ▸ hruns)
    exact exec_keeps_flag hi he h
  all_goals intros; exact h

end Sys2Proof.Machine

/-! O47. `run` becomes HALTED by HLT alone: every other write of `run` is a raise. -/

namespace Sys2Proof.Machine

/-- Taking an interrupt does not halt (R179). -/
theorem interruptEntry_run_ne_halted (i : Fin 8) {s : State} (h : s.run ≠ .halted) :
    (interruptEntry i s).final.run ≠ .halted :=
  interruptEntry_keeps (fun u => u.run ≠ .halted) (fun _ _ _ => nofun) (fun _ _ _ h => h) (fun _ _ _ h => h)
    (fun _ _ h => h) i s h

/-- Returning from one does not halt (R161). -/
theorem interruptReturn_run_ne_halted {s : State} (h : s.run ≠ .halted) :
    (interruptReturn s).final.run ≠ .halted :=
  interruptReturn_keeps (fun u => u.run ≠ .halted) (fun _ _ _ => nofun) (fun _ _ _ h => h) (fun _ _ h => h)
    (fun _ _ h => h) s h

/-- From a running state only HLT ends HALTED, and it writes nothing but `run` (R32, R160). -/
theorem exec_halts {i : Instr} {s t : State} (hs : s.run = .running) (ht : exec i s = .next t)
    (h : t.run = .halted) : i = .hlt ∧ t = s.setRun .halted := by
  have hrun : s.run ≠ .halted := by simp [hs]
  refine next_satisfies (P := fun u => u.run = .halted → i = .hlt ∧ u = s.setRun .halted) (exec_final _ i s ?raise
    ?writeReg ?cmp ?st ?prn ?pra ?push ?pop ?call ?ret ?jump ?notTaken ?hlt ?iret) ht h
  case hlt => exact fun e _ => ⟨e, rfl⟩
  case raise => exact fun _ => nofun
  case iret => exact fun _ h => absurd h (interruptReturn_run_ne_halted hrun)
  all_goals intros; exact absurd ‹s.run = .halted› hrun

/-- Settles O47: a cycle of a running machine that ends HALTED has run HLT, whose opcode byte stands at `pc`. -/
theorem haltsOnlyByHlt : Obligations.HaltsOnlyByHlt := by
  intro s t hs ht
  refine step_cases (fun u => u.run = .halted → s.mem.get s.pc = 0x01#8 ∧ u = (timerCheck s).setRun .halted) s t ht
    ?ended ?pcOut ?service ?rejected ?runs
  case ended => exact fun hn => absurd hs hn
  case pcOut => exact fun _ _ => nofun
  case service =>
    exact fun i _ _ _ h => absurd h (interruptEntry_run_ne_halted i (by simp [hs]))
  case rejected => exact fun _ _ _ _ _ => nofun
  case runs =>
    intro i _ _ hf _ he h
    obtain ⟨rfl, rfl⟩ := exec_halts (s := timerCheck s) hs he h
    exact ⟨fetch_opcode hf, rfl⟩

end Sys2Proof.Machine

/-! O49. Every update of the state keeps the invariant, `pc`'s advance as far as the instruction's bytes lie in
memory; those of an instruction that was fetched do (R98). -/

namespace Sys2Proof.Machine

theorem State.Inv.setPc {s : State} (h : s.Inv) (v : Byte) : (s.setPc v.toNat).Inv :=
  ⟨h.1, Nat.le_of_lt v.isLt⟩

theorem State.Inv.writeMem {s : State} (h : s.Inv) (a v : Byte) : (s.writeMem a v).Inv :=
  ⟨writeMem_wf s a v h.1, h.2⟩

/-- An instruction whose bytes lie in memory keeps the invariant. -/
theorem exec_keeps_inv {i : Instr} {s t : State} (h : s.Inv) (hw : s.pc + i.op.width ≤ memSize)
    (ht : exec i s = .next t) : t.Inv := by
  refine next_satisfies (exec_final State.Inv i s (raise := fun _ => h) (hlt := fun _ => h)
    (writeReg := fun _ _ _ _ => ⟨h.1, hw⟩) (jump := fun v _ => h.setPc v) (ret := fun v _ => h.setPc v)
    ?cmp ?st ?prn ?pra ?push ?pop ?call ?notTaken ?iret) ht
  case cmp | pop => rintro _ _ _ rfl; exact ⟨h.1, hw⟩
  case prn | pra => rintro _ _ rfl; exact ⟨h.1, hw⟩
  case st => rintro _ _ a v rfl; exact ⟨writeMem_wf s a v h.1, hw⟩
  case push => rintro _ v rfl; exact ⟨writeMem_wf s (pushAddress s) v h.1, hw⟩
  case call => exact fun _ v t _ => (State.Inv.writeMem h (pushAddress s) v).setPc t
  case notTaken => rintro _ (rfl | rfl) <;> exact ⟨h.1, hw⟩
  case iret =>
    exact fun _ => interruptReturn_keeps State.Inv (fun _ _ h => h) (fun _ _ _ h => h) (fun _ _ h => h)
      (fun _ v h => h.setPc v) s h

/-- Taking an interrupt keeps the invariant (R179). -/
theorem interruptEntry_keeps_inv (i : Fin 8) {s : State} (h : s.Inv) : (interruptEntry i s).final.Inv :=
  interruptEntry_keeps State.Inv (fun _ _ h => h) (fun _ _ _ h => h) (fun _ a v h => h.writeMem a v)
    (fun _ v h => h.setPc v) i s h

/-- Settles O49: the timer check and a raise keep the invariant, and an instruction that runs was fetched, so its
bytes lie in memory. -/
theorem stepKeepsInvariant : Obligations.StepKeepsInvariant := by
  intro s t h ht
  have htimer : (timerCheck s).Inv := h
  refine step_cases State.Inv s t ht ?ended ?pcOut ?service ?rejected ?runs
  case ended => exact fun _ => h
  case pcOut => exact fun _ _ => h
  case service => exact fun i _ _ _ => interruptEntry_keeps_inv i htimer
  case rejected => exact fun _ _ _ _ _ => htimer
  case runs => exact fun i _ hpc hf _ he => exec_keeps_inv htimer (fetch_width (timerCheck s) i hpc hf) he

/-- Settles O50: no cell is listed after reset and `pc` is 0. -/
theorem resetMeetsInvariant : Obligations.ResetMeetsInvariant :=
  ⟨(wf_iff []).mpr ⟨.nil, nofun⟩, Nat.zero_le memSize⟩

/-- Settles O51. -/
theorem resetValues : Obligations.ResetValues := by
  have otherRegs : ∀ r : Reg, r ≠ 7 → State.reset.reg r = 0#8 := by decide
  have memory : ∀ k, State.reset.mem.get k = 0#8 := fun k => get_unlisted [] k nofun
  exact ⟨rfl, rfl, otherRegs, rfl, rfl, rfl, rfl, memory⟩

end Sys2Proof.Machine

/-! O44. Setting `fl` beforehand commutes with every instruction but CMP and IRET, if JEQ and JNE find the same bit
1. That `fl` is not written then follows: setting it beforehand to what it holds changes nothing. -/

namespace Sys2Proof.Machine

/-- The outcome with `fl` set to `f` in the state it ends in. -/
def Ran.setFl {α : Type} (f : Byte) : Ran α → Ran α
  | .ok v s => .ok v (s.setFl f)
  | .raised s => .raised (s.setFl f)

section SetFl
variable (f : Byte) (s : State)

theorem final_setFl {α : Type} (r : Ran α) : (r.setFl f).final = r.final.setFl f := by
  cases r <;> rfl

theorem withReg_setFl (a : Byte) {k' k : Reg → Ran Unit} (hk : ∀ r, k' r = (k r).setFl f) :
    withReg a (s.setFl f) k' = (withReg a s k).setFl f := by
  unfold withReg
  cases regOf a with
  | some r => exact hk r
  | none => rfl

theorem withRegs_setFl (a b : Byte) {k' k : Reg → Reg → Ran Unit} (hk : ∀ q r, k' q r = (k q r).setFl f) :
    withRegs a b (s.setFl f) k' = (withRegs a b s k).setFl f :=
  withReg_setFl f s a fun q => withReg_setFl f s b (hk q)

theorem push_then_setFl (v : Byte) (k : State → State) (hk : ∀ t, k (t.setFl f) = (k t).setFl f) :
    ((push v (s.setFl f)).andThen fun _ t => .ok () (k t)) =
      ((push v s).andThen fun _ t => .ok () (k t)).setFl f := by
  rcases push_cases v s with ⟨h, e⟩ | ⟨h, e⟩
  · rw [e, push_ok v (s.setFl f) h, andThen_ok, andThen_ok, Ran.setFl, ← hk]
    rfl
  · rw [e, push_fault v (s.setFl f) h]
    rfl

theorem pop_then_setFl (k : Byte → State → State) (hk : ∀ v t, k v (t.setFl f) = (k v t).setFl f) :
    ((pop (s.setFl f)).andThen fun v t => .ok () (k v t)) =
      ((pop s).andThen fun v t => .ok () (k v t)).setFl f := by
  rcases pop_cases s with ⟨h, e⟩ | ⟨h, e⟩
  · rw [e, pop_ok (s.setFl f) h, andThen_ok, andThen_ok, Ran.setFl, ← hk]
    rfl
  · rw [e, pop_fault (s.setFl f) h]
    rfl

variable {s} {t : State}

theorem outcome_setFl {r' r : Ran Unit} (hr : r' = r.setFl f) (ht : r.outcome = .next t) :
    r'.outcome = .next (t.setFl f) := by
  cases ht
  rw [hr, Ran.outcome, final_setFl]

/-- Setting `fl` commutes with every instruction but CMP and IRET, and with JEQ and JNE if it keeps bit 1 (R31,
R149). -/
theorem exec_setFl {i : Instr} (hcmp : ∀ a b, i ≠ .cmp a b) (hiret : i ≠ .iret)
    (hequal : (∃ a, i = .jeq a ∨ i = .jne a) → (s.setFl f).equalFlag = s.equalFlag) (ht : exec i s = .next t) :
    exec i (s.setFl f) = .next (t.setFl f) := by
  cases i with
  | hlt => cases ht; rfl
  | cmp a b => exact absurd rfl (hcmp a b)
  | iret => exact absurd rfl hiret
  | ldi a | addi a | not a | prn a | pra a | jmp a => exact outcome_setFl f (withReg_setFl f s a fun _ => rfl) ht
  | st a b | add a b | mul a b | and a b | or a b | xor a b | shl a b | shr a b =>
    exact outcome_setFl f (withRegs_setFl f s a b fun _ _ => rfl) ht
  | mod a b =>
    refine outcome_setFl f (withRegs_setFl f s a b fun _ r => ?_) ht
    rw [setFl_reg]
    split <;> rfl
  | jeq a =>
    refine outcome_setFl f (withReg_setFl f s a fun r => ?_) ht
    rw [hequal ⟨a, .inl rfl⟩]
    cases s.equalFlag <;> rfl
  | jne a =>
    refine outcome_setFl f (withReg_setFl f s a fun r => ?_) ht
    rw [hequal ⟨a, .inr rfl⟩]
    cases s.equalFlag <;> rfl
  | push a =>
    exact outcome_setFl f (withReg_setFl f s a fun r =>
      push_then_setFl f s (s.reg r) (·.advance 2) fun _ => rfl) ht
  | pop a =>
    exact outcome_setFl f (withReg_setFl f s a fun r =>
      pop_then_setFl f s (fun v u => (u.setReg r v).advance 2) fun _ _ => rfl) ht
  | call a =>
    refine outcome_setFl f (withReg_setFl f s a fun r => ?_) ht
    rw [setFl_pc]
    split
    · rfl
    · exact push_then_setFl f s _ (·.setPc (s.reg r).toNat) fun _ => rfl
  | ret => exact outcome_setFl f (pop_then_setFl f s (fun v u => u.setPc v.toNat) fun _ _ => rfl) ht

end SetFl

/-- Settles O44: with `fl` set to what it already holds, commuting says that the instruction does not write it. -/
theorem flagWritersAndReaders : Obligations.FlagWritersAndReaders := by
  intro i s f hcmp hiret hequal
  obtain ⟨t, ht⟩ := exec_next i s
  have hsame : exec i s = .next (t.setFl s.fl) := exec_setFl s.fl hcmp hiret (fun _ => rfl) ht
  have heq : t = t.setFl s.fl := by simpa using ht.symm.trans hsame
  have hfl : t.fl = s.fl := by rw [heq, setFl_fl]
  exact ⟨t, ht, hfl, exec_setFl f hcmp hiret hequal ht⟩

end Sys2Proof.Machine

/-! O54. A store at `pc` is the first byte of the next fetch and leaves the two after it as they were (R61, R63); an
instruction fetched so runs, and a rejected one raises its cause. -/

namespace Sys2Proof.Machine

/-- A write below `j` leaves the bytes from `j` upward as they were. -/
theorem bytesFrom_set_below (m : Memory) {k j : Nat} (v : Byte) (n : Nat) (h : k < j) :
    (m.set k v).bytesFrom j n = m.bytesFrom j n := by
  induction n generalizing j with
  | zero => rfl
  | succ n ih => rw [Memory.bytesFrom, Memory.bytesFrom, get_set_other m k j v (Nat.ne_of_lt h), ih (by omega)]

/-- Bytes read from a written address are the byte written, then those that stood behind it. -/
theorem bytesFrom_set_same (m : Memory) {k : Nat} (v : Byte) (n : Nat) (h : k < memSize) :
    (m.set k v).bytesFrom k (n + 1) = v :: m.bytesFrom (k + 1) n := by
  rw [Memory.bytesFrom, if_pos h, get_set_same, bytesFrom_set_below m v n (Nat.lt_succ_self k)]

/-- ST with two register operands stores one byte and advances `pc` by 3 (R122). -/
theorem exec_st_regByte (ra rb : Reg) (s : State) :
    exec (.st (regByte ra) (regByte rb)) s =
      .next ((s.writeMem (storeAddress s ra) (s.reg rb)).advance 3) := by
  rw [exec, execSt, withRegs_regByte]
  rfl

section NextFetch
variable {s : State} (hrun : s.run = .running) (hpc : s.pc ≤ 255)
include hrun hpc

theorem prepare_inRange : prepare s = prepareInRange s := by
  rw [prepare, hrun]
  exact if_neg (Nat.not_lt.mpr hpc)

variable (hnone : pendingInterrupt (timerCheck s) = none)
include hnone

/-- With no service due, the instruction whose bytes stand at `pc` runs (R90). -/
theorem step_of_decode_ok {i : Instr} {rest : List Byte} (hd : decode (s.mem.bytesFrom s.pc 3) = .ok (i, rest)) :
    step s = exec i (timerCheck s) := by
  have hf : fetch (timerCheck s) = .ok i := by rw [fetch, timerCheck_mem, timerCheck_pc, hd]
  rw [step, prepare_inRange hrun hpc, prepareInRange, hnone]
  simp only [hf]

/-- With no service due, bytes at `pc` that do not decode raise the rejection's cause (R97, R98). -/
theorem step_of_decode_error {e : DecodeReject} (hd : decode (s.mem.bytesFrom s.pc 3) = .error e) :
    step s = .next ((timerCheck s).raise (rejectCause e)) := by
  have hf : fetch (timerCheck s) = .error e := by rw [fetch, timerCheck_mem, timerCheck_pc, hd]
  rw [step, prepare_inRange hrun hpc, prepareInRange, hnone]
  simp only [hf]

end NextFetch

/-- Settles O54: the byte ST stores at the next `pc` heads what that cycle fetches, and decides with the two bytes
behind it whether the cycle runs an instruction or raises. -/
theorem storeIsSeenByNextFetch : Obligations.StoreIsSeenByNextFetch := by
  intro s t ra rb ht hrun hpc hnone
  have hnext : t = (s.writeMem (storeAddress s ra) (s.reg rb)).advance 3 := by
    rw [exec_st_regByte] at ht
    cases ht
    rfl
  have htrun : t.run = .running := by rw [hnext, advance_run, writeMem_run, hrun]
  have htpc : t.pc = s.pc + 3 := by rw [hnext, advance_pc, writeMem_pc]
  have htmem : t.mem = s.mem.set (s.pc + 3) (s.reg rb) := by rw [hnext, advance_mem, writeMem_mem, storeAddress, hpc]
  have hin : s.pc + 3 < memSize := hpc ▸ (s.reg ra).isLt
  have hbytes : t.mem.bytesFrom t.pc 3 = s.reg rb :: s.mem.bytesFrom (s.pc + 4) 2 := by
    rw [htmem, htpc, bytesFrom_set_same s.mem (s.reg rb) 2 hin]
  have htin : t.pc ≤ 255 := htpc ▸ Nat.le_of_lt_succ hin
  rw [← hbytes]
  cases hd : decode (t.mem.bytesFrom t.pc 3) with
  | ok d => exact step_of_decode_ok htrun htin hnone hd
  | error e => exact step_of_decode_error htrun htin hnone hd

end Sys2Proof.Machine

/-! O1, O2, O3, O4, O5. The decoder, said once: an opcode byte the table has, followed by as many bytes as its
operation's descriptor counts, decodes to the instruction put together from them; followed by fewer, it is rejected
(R70, R72, R80). A legal map makes the lookup the inverse of the opcode (R76). -/

namespace Sys2Proof.Machine

theorem mem_opAll (o : Op) : o ∈ Op.all := by
  cases o <;> decide

theorem operandCount_le_two (o : Op) : o.operandCount ≤ 2 := by
  cases o <;> decide

theorem operands_length (i : Instr) : i.operands.length = i.op.operandCount := by
  cases i <;> rfl

theorem assemble_operands (i : Instr) : i.op.assemble (i.operands.getD 0 0) (i.operands.getD 1 0) = i := by
  cases i <;> rfl

/-- An instruction keeps of two bytes as many as its operation counts. -/
theorem operands_assemble (o : Op) (a b : Byte) : (o.assemble a b).operands = [a, b].take o.operandCount := by
  cases o <;> rfl

/-- An instruction put together from as many bytes as its operation counts has just those operand bytes. -/
theorem operands_assemble_getD {o : Op} {bs : List Byte} (h : bs.length = o.operandCount) :
    (o.assemble (bs.getD 0 0) (bs.getD 1 0)).operands = bs := by
  have htwo : bs.length ≤ 2 := h ▸ operandCount_le_two o
  rw [operands_assemble, ← h]
  rcases bs with _ | ⟨a, _ | ⟨b, _ | ⟨c, bs⟩⟩⟩
  case cons.cons.cons => exact absurd htwo (by simp)
  all_goals rfl

/-- A search by opcode finds the operation itself in a list whose opcodes are distinct. -/
theorem find_opcode {m : AluOpcodeMap} {l : List Op} (hd : (l.map (Op.opcode m)).Nodup) {o : Op} (ho : o ∈ l) :
    l.find? (fun q => Op.opcode m q == Op.opcode m o) = some o := by
  induction l with
  | nil => cases ho
  | cons q l ih =>
    rw [List.map_cons, List.nodup_cons] at hd
    obtain ⟨hq, hl⟩ := hd
    rcases List.mem_cons.mp ho with rfl | ho
    · exact List.find?_cons_of_pos (beq_self_eq_true _)
    · have hne : Op.opcode m q ≠ Op.opcode m o := fun e => hq (e ▸ List.mem_map_of_mem ho)
      exact (List.find?_cons_of_neg (by rwa [beq_iff_eq])).trans (ih hl ho)

/-- Under a legal map the opcode byte of an operation names that operation (R72, R76). -/
theorem lookupOp_opcode_self {m : AluOpcodeMap} (hm : m.Legal) (o : Op) : lookupOp m (o.opcode m) = some o :=
  find_opcode hm (mem_opAll o)

/-- The lookup fails on the bytes that are no operation's opcode. -/
theorem lookupOp_eq_none (m : AluOpcodeMap) (b : Byte) : lookupOp m b = none ↔ b ∉ Op.all.map (Op.opcode m) := by
  simp [lookupOp]

/-- The bytes R78 lists are the opcodes of the table. -/
theorem recognizedOpcodes_perm : recognizedOpcodes.Perm (Op.all.map (Op.opcode defaultAluOpcodeMap)) := by
  decide

section Decode
variable {m : AluOpcodeMap} {b : Byte} {o : Op} {bs : List Byte}

theorem decodeWith_unrecognized (hl : lookupOp m b = none) (bs : List Byte) :
    decodeWith m (b :: bs) = .error (.unrecognizedOpcode b) := by
  rw [decodeWith, hl]

/-- As many bytes behind the opcode as the operation counts are its operands, and the rest is left. -/
theorem decodeWith_complete (hl : lookupOp m b = some o) (h : bs.length = o.operandCount) (rest : List Byte) :
    decodeWith m (b :: (bs ++ rest)) = .ok (o.assemble (bs.getD 0 0) (bs.getD 1 0), rest) := by
  have htwo : bs.length ≤ 2 := h ▸ operandCount_le_two o
  rw [decodeWith, hl]
  dsimp only
  rw [← h]
  rcases bs with _ | ⟨x, _ | ⟨y, _ | ⟨z, bs⟩⟩⟩
  case cons.cons.cons => exact absurd htwo (by simp)
  all_goals rfl

/-- With fewer bytes behind the opcode than the operation counts, an operand is missing (R98). -/
theorem decodeWith_short (hl : lookupOp m b = some o) (h : bs.length < o.operandCount) :
    decodeWith m (b :: bs) = .error (.operandMissing o) := by
  have htwo := operandCount_le_two o
  rw [decodeWith, hl]
  dsimp only
  generalize o.operandCount = n at h htwo
  rcases bs with _ | ⟨x, _ | ⟨y, bs⟩⟩ <;> simp only [List.length_nil, List.length_cons] at h
  · obtain _ | _ | n := n
    · omega
    · rfl
    · rfl
  · obtain _ | _ | n := n
    · omega
    · omega
    · rfl
  · omega

/-- Behind an opcode of the table, bytes are too few, or they begin with the operation's operands. -/
theorem decodeWith_cases (hl : lookupOp m b = some o) (bs : List Byte) :
    decodeWith m (b :: bs) = .error (.operandMissing o) ∨
      ∃ args rest, bs = args ++ rest ∧ args.length = o.operandCount ∧
        decodeWith m (b :: bs) = .ok (o.assemble (args.getD 0 0) (args.getD 1 0), rest) := by
  by_cases h : bs.length < o.operandCount
  · exact .inl (decodeWith_short hl h)
  · have htake : (bs.take o.operandCount).length = o.operandCount := List.length_take_of_le (Nat.not_lt.mp h)
    have hbs := List.take_append_drop o.operandCount bs
    exact .inr ⟨_, _, hbs.symm, htake, by rw [← decodeWith_complete hl htake, hbs]⟩

end Decode

/-- Settles O1: the lookup names the operation, and the bytes behind the opcode are as many as it counts. -/
theorem decodeOfEncode : Obligations.DecodeOfEncode := by
  intro m i rest hm
  have hdec := decodeWith_complete (lookupOp_opcode_self hm i.op) (operands_length i) rest
  rwa [assemble_operands] at hdec

/-- Settles O2: bytes that decode are an opcode of the table and enough bytes behind it, and the instruction they
give is put together from those. -/
theorem decodedBytesAreTheEncoding : Obligations.DecodedBytesAreTheEncoding := by
  intro m bytes rest i h
  cases bytes with
  | nil => cases h
  | cons b bs =>
    cases hl : lookupOp m b with
    | none => rw [decodeWith_unrecognized hl] at h; cases h
    | some o =>
      rcases decodeWith_cases hl bs with e | ⟨args, left, rfl, hlen, e⟩ <;> rw [e] at h <;> cases h
      rw [encodeWith, op_assemble, operands_assemble_getD hlen, lookupOp_opcode hl, List.cons_append]

/-- Settles O5: an encoding cut behind its opcode byte has fewer bytes there than the operation counts. -/
theorem truncatedEncodingIsRejected : Obligations.TruncatedEncodingIsRejected := by
  intro m i n hm hpos hlt
  obtain ⟨k, rfl⟩ := Nat.exists_eq_add_of_lt hpos
  have hk : (i.operands.take (0 + k)).length < i.op.operandCount := by
    rw [encodeWith, List.length_cons] at hlt
    rw [List.length_take, ← operands_length]
    omega
  exact decodeWith_short (lookupOp_opcode_self hm i.op) hk

/-- Settles O3: each word is the encoding of its instruction, and the default map is legal. -/
theorem specWordsDecode : Obligations.SpecWordsDecode := by
  have word : ∀ i, decode (encode i ++ []) = .ok (i, []) := fun i => decodeOfEncode _ i [] (by decide)
  exact ⟨word .hlt, word (.ldi 3 255), word (.st 1 2), word (.pra 6), word (.call 2), word .iret, word (.cmp 4 5),
    word (.not 7)⟩

/-- Settles O4: a byte the lookup does not find is rejected as unrecognized, and one it finds gives an instruction or
another rejection. -/
theorem unrecognizedIffNotInTable : Obligations.UnrecognizedIffNotInTable := by
  intro b rest
  rw [recognizedOpcodes_perm.mem_iff, ← lookupOp_eq_none, decode]
  refine ⟨fun h => ?_, fun h => decodeWith_unrecognized h rest⟩
  cases hl : lookupOp defaultAluOpcodeMap b with
  | none => rfl
  | some o =>
    rcases decodeWith_cases hl rest with e | ⟨_, _, _, _, e⟩ <;> rw [e] at h <;> cases h

end Sys2Proof.Machine

/-! O12, O55. A register byte above 7 ends every instruction in the same way (R73), and the diagnostic of a rejected or
ill-formed instruction reads the bytes at the `pc` that the fault left alone (R171, R172). -/

namespace Sys2Proof.Machine

theorem withReg_illFormed {a : Byte} (h : [a].all isRegByte = false) (s : State) (k : Reg → Ran Unit) :
    (withReg a s k).outcome = .next (s.raise .invalidRegisterIndex) := by
  rw [withReg_bad a s k (by simpa using h)]
  rfl

theorem withRegs_illFormed {a b : Byte} (h : [a, b].all isRegByte = false) (s : State) (k : Reg → Reg → Ran Unit) :
    (withRegs a b s k).outcome = .next (s.raise .invalidRegisterIndex) := by
  rcases withRegs_cases a b s k with ⟨q, r, rfl, rfl, -⟩ | ⟨-, e⟩
  · simp at h
  · rw [e]
    rfl

/-- An ill-formed instruction raises `InvalidRegisterIndex` and does nothing else (R73). -/
theorem exec_illFormed {i : Instr} (h : i.wellFormed = false) (s : State) :
    exec i s = .next (s.raise .invalidRegisterIndex) := by
  cases i with
  | hlt | ret | iret => cases h
  | ldi a _ | addi a _ | prn a | pra a | push a | pop a | call a | jmp a | jeq a | jne a | not a =>
    exact withReg_illFormed h s _
  | st a b | add a b | mul a b | mod a b | cmp a b | and a b | or a b | xor a b | shl a b | shr a b =>
    exact withRegs_illFormed h s _

/-- Settles O12: the raise writes `run` alone. -/
theorem invalidRegisterByteFaults : Obligations.InvalidRegisterByteFaults :=
  fun _ s h => exec_illFormed h s

/-- The first byte read at an address of the memory is the one there. -/
theorem bytesFrom_succ (m : Memory) {k : Nat} (h : k < memSize) (n : Nat) :
    m.bytesFrom k (n + 1) = m.get k :: m.bytesFrom (k + 1) n := by
  rw [Memory.bytesFrom, if_pos h]

theorem not_isRegByte (b : Byte) : (!isRegByte b) = decide (8 ≤ b.toNat) := by
  rw [isRegByte, ← decide_not, decide_eq_decide, Nat.not_lt]

/-- What the diagnostic looks for is the first register byte above 7. -/
theorem badRegByte_of_decode {s : State} {i : Instr} {rest : List Byte}
    (hd : decode (s.mem.bytesFrom s.pc 3) = .ok (i, rest)) :
    badRegByte s = i.regOperands.find? fun x => decide (8 ≤ x.toNat) := by
  have hf : fetch s = .ok i := by rw [fetch, hd]
  simp only [badRegByte, hf, not_isRegByte]

/-- An ill-formed instruction has a register byte above 7. -/
theorem find_badReg_of_illFormed {i : Instr} (h : i.wellFormed = false) :
    ∃ b, i.regOperands.find? (fun x => decide (8 ≤ x.toNat)) = some b := by
  rw [← Option.isSome_iff_exists, List.find?_isSome]
  simpa [Instr.wellFormed, isRegByte] using h

/-- Settles O55: the fault leaves memory and `pc` as the fetch found them, so the diagnostic reads the same bytes. -/
theorem diagnosticRecords : Obligations.DiagnosticRecords := by
  intro s hrun hpc hnone
  constructor
  · intro hop
    have hd : decode (s.mem.bytesFrom s.pc 3) = .error (.unrecognizedOpcode (s.mem.get s.pc)) := by
      rw [bytesFrom_succ s.mem (Nat.lt_succ_of_le hpc)]
      exact (unrecognizedIffNotInTable _ _).mpr hop
    exact ⟨_, step_of_decode_error hrun hpc hnone hd, rfl⟩
  · intro i rest hd hi
    obtain ⟨b, hb⟩ := find_badReg_of_illFormed hi
    have hstep : step s = .next ((timerCheck s).raise .invalidRegisterIndex) := by
      rw [step_of_decode_ok hrun hpc hnone hd, exec_illFormed hi]
    have hbyte : badRegByte ((timerCheck s).raise .invalidRegisterIndex) = some b :=
      (badRegByte_of_decode hd).trans hb
    refine ⟨_, b, hstep, hb, ?_⟩
    rw [State.diagnostic, raise_run, ← hbyte]
    rfl

end Sys2Proof.Machine

/-! O53. The content of a line decides what the line does: none skips it, the literal of a byte appends that byte, and
anything else fails the file (R81). A literal's content is the only one its byte is read from. -/

namespace Sys2Proof.Machine

/-- The low `k` bits of `n` as a program file writes them, most significant first. -/
def binaryDigits (n : Nat) : Nat → List Char
  | 0 => []
  | k + 1 => (if n.testBit k then '1' else '0') :: binaryDigits n k

theorem byteLiteral_ofNat (n : Nat) : byteLiteral (BitVec.ofNat 8 n) = binaryDigits n 8 := by
  simp [byteLiteral, binaryDigits, BitVec.getLsbD_ofNat]

/-- Characters read as a number are its digits, behind those of the number they were appended to. -/
theorem binaryFrom_eq_some {acc n : Nat} {cs : List Char} (h : binaryFrom acc cs = some n) :
    n / 2 ^ cs.length = acc ∧ cs = binaryDigits n cs.length := by
  induction cs generalizing acc with
  | nil => cases h; exact ⟨Nat.div_one _, rfl⟩
  | cons c cs ih =>
    have digit : ∀ bit, bit < 2 → binaryFrom (2 * acc + bit) cs = some n →
        n / 2 ^ (cs.length + 1) = acc ∧ n.testBit cs.length = decide (bit = 1) ∧ cs = binaryDigits n cs.length := by
      intro bit hbit hn
      obtain ⟨hdiv, hcs⟩ := ih hn
      refine ⟨?_, ?_, hcs⟩
      · rw [Nat.pow_succ, ← Nat.div_div_eq_div_mul, hdiv]
        omega
      · rw [Nat.testBit_eq_decide_div_mod_eq, hdiv, decide_eq_decide]
        omega
    rw [binaryFrom] at h
    rw [List.length_cons, binaryDigits]
    split at h
    · next hc =>
      obtain ⟨hdiv, hbit, hcs⟩ := digit 0 (by decide) h
      exact ⟨hdiv, by rw [hbit, hc, ← hcs]; rfl⟩
    · split at h
      · next hc =>
        obtain ⟨hdiv, hbit, hcs⟩ := digit 1 (by decide) h
        exact ⟨hdiv, by rw [hbit, hc, ← hcs]; rfl⟩
      · cases h

/-- Only the literal of a byte is read as that byte (R81). -/
theorem eq_byteLiteral_of_literalByte {content : List Char} {b : Byte} (h : literalByte content = some b) :
    content = byteLiteral b := by
  rw [literalByte] at h
  split at h
  · next hlen =>
    obtain ⟨n, hn, rfl⟩ := Option.map_eq_some_iff.mp h
    obtain ⟨-, hdigits⟩ := binaryFrom_eq_some hn
    rw [byteLiteral_ofNat, ← hlen, ← hdigits]
  · cases h

/-! What stands on a line. -/

/-- Between blanks, what holds no blank is what is left when the blanks are dropped. -/
theorem dropWhile_isBlank {pre u post : List Char} (hpre : ∀ c ∈ pre, isBlank c = true)
    (hu : ∀ c ∈ u, isBlank c = false) (hne : u ≠ []) : (pre ++ (u ++ post)).dropWhile isBlank = u ++ post := by
  rw [List.dropWhile_append_of_pos hpre]
  cases u with
  | nil => exact absurd rfl hne
  | cons c cs => exact List.dropWhile_cons_of_neg (by simp [hu c List.mem_cons_self])

/-- A word without blanks, between blanks and before the comment, is the content of its line. -/
theorem lineContent_word {line pre u post : List Char} (hline : line.takeWhile (· != '#') = pre ++ (u ++ post))
    (hpre : ∀ c ∈ pre, isBlank c = true) (hu : ∀ c ∈ u, isBlank c = false) (hne : u ≠ [])
    (hpost : ∀ c ∈ post, isBlank c = true) : lineContent line = u := by
  rw [lineContent, hline, dropWhile_isBlank hpre hu hne, List.reverse_append, ← List.append_nil u.reverse,
    dropWhile_isBlank (fun c hc => hpost c (List.mem_reverse.mp hc)) (fun c hc => hu c (List.mem_reverse.mp hc))
      (mt List.reverse_eq_nil_iff.mp hne), List.append_nil, List.reverse_reverse]

theorem ne_comment_of_isBlank {c : Char} (h : isBlank c = true) : (c != '#') = true := by
  rw [bne_iff_ne]
  rintro rfl
  exact absurd h (by decide)

/-- The literal of a byte between blanks, and perhaps a comment, has that literal as its content (R81). -/
theorem lineContent_byteLiteral {pre tail : List Char} (b : Byte) (hpre : ∀ c ∈ pre, isBlank c = true)
    (htail : ∀ c ∈ tail.takeWhile (· != '#'), isBlank c = true) :
    lineContent (pre ++ byteLiteral b ++ tail) = byteLiteral b := by
  have hdigit : ∀ c ∈ byteLiteral b, (c != '#') = true ∧ isBlank c = false := by
    intro c hc
    rcases mem_byteLiteral b c hc with rfl | rfl <;> decide
  have hline : (pre ++ byteLiteral b ++ tail).takeWhile (· != '#')
      = pre ++ (byteLiteral b ++ tail.takeWhile (· != '#')) := by
    rw [List.append_assoc, List.takeWhile_append_of_pos fun c hc => ne_comment_of_isBlank (hpre c hc),
      List.takeWhile_append_of_pos fun c hc => (hdigit c hc).1]
  exact lineContent_word hline hpre (fun c hc => (hdigit c hc).2) (List.cons_ne_nil _ _) htail

/-- A line that is neither skipped nor the literal of a byte between blanks is read as no byte (R81). -/
theorem literalByte_lineContent_eq_none {line : List Char}
    (h : ∀ (b : Byte) (pre post : List Char), (∀ c ∈ pre, isBlank c = true) → (∀ c ∈ post, isBlank c = true) →
      line.takeWhile (· != '#') ≠ pre ++ byteLiteral b ++ post) : literalByte (lineContent line) = none := by
  cases hb : literalByte (lineContent line) with
  | none => rfl
  | some b =>
    obtain ⟨pre, post, hpre, hpost, hline⟩ := lineContent_split line
    rw [eq_byteLiteral_of_literalByte hb] at hline
    exact absurd hline (h b pre post hpre hpost)

/-- A line with a character before its comment that is no blank has a content. -/
theorem lineContent_ne_nil {line : List Char} (h : ∃ c ∈ line.takeWhile (· != '#'), isBlank c = false) :
    lineContent line ≠ [] := by
  obtain ⟨c, hc, hnot⟩ := h
  obtain ⟨pre, post, hpre, hpost, hline⟩ := lineContent_split line
  intro hnil
  rw [hline, hnil, List.append_nil] at hc
  rcases List.mem_append.mp hc with hc | hc
  · simp [hpre c hc] at hnot
  · simp [hpost c hc] at hnot

/-! What a line does to the file. -/

theorem parseProgram_skip {line : List Char} (h : lineContent line = []) (lines : List (List Char)) :
    parseProgram (line :: lines) = parseProgram lines := by
  rw [parseProgram, h]

theorem parseProgram_literal {line : List Char} {b : Byte} (h : literalByte (lineContent line) = some b)
    {lines : List (List Char)} {bs : List Byte} (hbs : parseProgram lines = .ok bs) :
    parseProgram (line :: lines) = .ok (b :: bs) := by
  rw [parseProgram]
  cases hc : lineContent line with
  | nil => rw [hc] at h; cases h
  | cons c cs => simp only [← hc, h, hbs]

theorem parseProgram_badLine {line : List Char} (hne : lineContent line ≠ [])
    (h : literalByte (lineContent line) = none) (lines : List (List Char)) :
    parseProgram (line :: lines) = .error .badLine := by
  rw [parseProgram]
  cases hc : lineContent line with
  | nil => exact absurd hc hne
  | cons c cs => simp only [← hc, h]

/-- Files that parse alike parse alike behind the same lines. -/
theorem parseProgram_append_congr {lines lines' : List (List Char)} (before : List (List Char))
    (h : parseProgram lines = parseProgram lines') :
    parseProgram (before ++ lines) = parseProgram (before ++ lines') := by
  induction before with
  | nil => exact h
  | cons line before ih => simp only [List.cons_append, parseProgram, ih]

/-- A bad line fails the file whatever stands before it. -/
theorem parseProgram_append_badLine {lines : List (List Char)} (before : List (List Char))
    (h : parseProgram lines = .error .badLine) : parseProgram (before ++ lines) = .error .badLine := by
  induction before with
  | nil => exact h
  | cons line before ih =>
    rw [List.cons_append, parseProgram, ih]
    cases lineContent line with
    | nil => rfl
    | cons c cs => cases hb : literalByte (c :: cs) <;> simp only [hb]

/-- A file of literals between blanks, each perhaps with a comment, is the image of their bytes (R81). -/
theorem parseProgram_literals {lines : List (List Char × Byte × List Char)}
    (h : ∀ l ∈ lines, (∀ c ∈ l.1, isBlank c = true) ∧ ∀ c ∈ l.2.2.takeWhile (· != '#'), isBlank c = true) :
    parseProgram (lines.map fun l => l.1 ++ byteLiteral l.2.1 ++ l.2.2) = .ok (lines.map fun l => l.2.1) := by
  induction lines with
  | nil => rfl
  | cons l lines ih =>
    obtain ⟨hpre, htail⟩ := h l List.mem_cons_self
    refine parseProgram_literal ?_ (ih fun k hk => h k (List.mem_cons_of_mem l hk))
    rw [lineContent_byteLiteral l.2.1 hpre htail, literalByte_byteLiteral]

/-- Settles O53: what the file parses to decides the load, and each kind of line is parsed as its rule says. -/
theorem programTextPlacesLiterals : Obligations.ProgramTextPlacesLiterals := by
  refine ⟨fun lines h => ⟨fun hfits => ?_, fun hlong => ?_⟩, fun before after line h => ?_,
    fun before after line hmark hword => ?_⟩
  · obtain ⟨s, hs⟩ : ∃ s, State.load (lines.map fun l => l.2.1) = some s :=
      ⟨_, if_pos (by rwa [List.length_map])⟩
    exact ⟨s, hs, by simp only [State.loadText, parseProgram_literals h, hs]⟩
  · have hnone : State.load (lines.map fun l => l.2.1) = none :=
      if_neg (by rwa [List.length_map, Nat.not_le])
    simp only [State.loadText, parseProgram_literals h, hnone]
  · have hskip := parseProgram_skip (lineContent_blank line h) after
    rw [State.loadText, State.loadText, parseProgram_append_congr before hskip]
  · have hbad := parseProgram_badLine (lineContent_ne_nil hmark) (literalByte_lineContent_eq_none hword) after
    rw [State.loadText, parseProgram_append_badLine before hbad]

end Sys2Proof.Machine

/-! O6, O8, O9, O10, O11, O39. The ways a cycle ends before or instead of step 7: each gate of R90 decides the step
once, and what it raises writes `run` alone (R91, R92, R94, R97, R98). -/

namespace Sys2Proof.Machine

/-- A fetch at an address of the memory decodes the opcode byte there and the two bytes behind it (R95). -/
theorem decode_bytesFrom (m : Memory) {k : Nat} (h : k ≤ 255) :
    decode (m.bytesFrom k 3) = decodeWith defaultAluOpcodeMap (m.get k :: m.bytesFrom (k + 1) 2) := by
  rw [decode, bytesFrom_succ m (Nat.lt_succ_of_le h)]

/-- Settles O11: fewer bytes than the operation counts lie between `pc` and the end of memory. -/
theorem operandBeyondMemoryFaults : Obligations.OperandBeyondMemoryFaults := by
  intro s o hrun hpc hnone hop hbeyond
  have hshort : (s.mem.bytesFrom (s.pc + 1) 2).length < o.operandCount := by
    have hlen := bytesFrom_length_le s.mem (s.pc + 1) 2
    rw [Op.width] at hbeyond
    omega
  have hd : decode (s.mem.bytesFrom s.pc 3) = .error (.operandMissing o) := by
    rw [decode_bytesFrom s.mem hpc, decodeWith_short hop hshort]
  exact step_of_decode_error hrun hpc hnone hd

/-- Settles O6. -/
theorem stepRunsDecodedInstruction : Obligations.StepRunsDecodedInstruction :=
  fun _ _ _ hrun hpc hnone hd => step_of_decode_ok hrun hpc hnone hd

/-- Settles O10: the decoder rejects the byte, and the rejection raises its cause. -/
theorem unrecognizedOpcodeFaults : Obligations.UnrecognizedOpcodeFaults := by
  intro s hrun hpc hnone hop
  have hd : decode (s.mem.bytesFrom s.pc 3) = .error (.unrecognizedOpcode (s.mem.get s.pc)) := by
    rw [decode_bytesFrom s.mem hpc]
    exact (unrecognizedIffNotInTable _ _).mpr hop
  exact step_of_decode_error hrun hpc hnone hd

/-- Settles O39: the interrupt check comes before the fetch. -/
theorem serviceReplacesFetch : Obligations.ServiceReplacesFetch := by
  intro s i hrun hpc hi
  rw [step, prepare_inRange hrun hpc, prepareInRange, hi]

/-- Settles O8: the range check comes before the timer check. -/
theorem pcBeyondMemoryFaults : Obligations.PcBeyondMemoryFaults := by
  intro s hrun hpc
  have hend : prepare s = .ended (s.raise .pcOutOfRange) := by
    rw [prepare, hrun]
    exact if_pos hpc
  rw [step, hend]
  rfl

/-- Settles O9: of the ways steps 0 to 6 end, all but the first are those of a running machine. -/
theorem endedRunStays : Obligations.EndedRunStays := by
  intro s hended
  rcases prepare_cases s with ⟨-, e⟩ | ⟨hrun, -⟩ | ⟨hrun, -⟩ | ⟨hrun, -⟩ | ⟨hrun, -⟩
  · rw [step, e]
  all_goals exact absurd hrun hended

end Sys2Proof.Machine

/-! O7, O37, O38. The timer check and the interrupt check, each said once: what register 6 holds after the one, and
that the other is a search for the least interrupt that requests service (R93, R94, R176, R178). -/

namespace Sys2Proof.Machine

theorem timerStatus_of_tick {s : State} (h : s.tick = true) : timerStatus s = 1#8 := by
  rw [timerStatus, if_pos h, timerIsValue]

theorem tick_of_ticks {s : State} {t : Bool} {rest : List Bool} (h : s.ticks = t :: rest) : s.tick = t := by
  rw [State.tick, h]

/-- Settles O7. -/
theorem timerCheckWritesStatus : Obligations.TimerCheckWritesStatus := by
  refine fun s => ⟨?status, fun r hr => ?others, rfl, fun _ _ h => tick_of_ticks h⟩
  case status => rw [timerCheck_reg, if_pos rfl, timerStatus, timerIsValue]
  case others => rw [timerCheck_reg, if_neg (Ne.symm hr)]

theorem requests_iff (s : State) (i : Fin 8) :
    s.requests i = true ↔ (s.reg 5).getLsbD i = true ∧ (s.reg 6).getLsbD i = true := by
  rw [State.requests, Bool.and_eq_true]

/-- The scan of R94 visits every interrupt, in ascending order. -/
theorem pendingInterrupt_eq_find (s : State) : pendingInterrupt s = (List.finRange 8).find? s.requests := rfl

theorem pendingInterrupt_eq_some (s : State) (i : Fin 8) :
    pendingInterrupt s = some i ↔ s.requests i = true ∧ ∀ j < i, s.requests j = false := by
  rw [pendingInterrupt_eq_find, List.find?_eq_some_iff_getElem]
  simp only [List.getElem_finRange, List.length_finRange, Bool.not_eq_true']
  refine and_congr_right fun _ => ⟨?_, fun h => ?_⟩
  · rintro ⟨k, hk, rfl, hbefore⟩ j hj
    exact hbefore j.val hj
  · exact ⟨i.val, i.isLt, rfl, fun j hj => h ⟨j, Nat.lt_trans hj i.isLt⟩ hj⟩

theorem pendingInterrupt_eq_none (s : State) : pendingInterrupt s = none ↔ ∀ i, s.requests i = false := by
  rw [pendingInterrupt_eq_find, List.find?_eq_none]
  simp only [List.mem_finRange, true_implies, Bool.not_eq_true]

/-- No interrupt requests service exactly if mask and status have no bit in common (R178). -/
theorem requests_eq_false_iff (s : State) : (∀ i, s.requests i = false) ↔ s.reg 5 &&& s.reg 6 = 0#8 := by
  simp only [BitVec.eq_of_getLsbD_eq_iff, BitVec.getLsbD_and, BitVec.getLsbD_zero, State.requests, Fin.forall_iff]

/-- Settles O37. -/
theorem lowestEnabledPendingWins : Obligations.LowestEnabledPendingWins := by
  refine fun s => ⟨fun i => ?_, (pendingInterrupt_eq_none s).trans (requests_eq_false_iff s)⟩
  simp only [pendingInterrupt_eq_some, ← Bool.not_eq_true, requests_iff, and_assoc]

/-- After a tick only interrupt 0 can request service, and does if it is enabled (R177). -/
theorem requests_timerCheck_of_tick {s : State} (h : s.tick = true) (i : Fin 8) :
    (timerCheck s).requests i = ((s.reg 5).getLsbD 0 && decide (i = 0)) := by
  have hstatus : (timerCheck s).reg 6 = 1#8 := by rw [timerCheck_reg, if_pos rfl, timerStatus_of_tick h]
  have hmask : (timerCheck s).reg 5 = s.reg 5 := by rw [timerCheck_reg, if_neg (by decide)]
  rw [State.requests, hstatus, hmask, BitVec.getLsbD_one]
  by_cases hi : i = 0
  · simp [hi]
  · have hval : i.val ≠ 0 := fun e => hi (Fin.ext e)
    simp [hi, hval]

/-- Settles O38: the literal 1 in register 6 leaves interrupt 0 as the only one that can be pending. -/
theorem tickRequestsInterruptZero : Obligations.TickRequestsInterruptZero := by
  refine fun s h => ⟨fun henabled => ?_, fun hmasked => ⟨?_, ?_⟩⟩
  · rw [pendingInterrupt_eq_some, requests_timerCheck_of_tick h, henabled]
    exact ⟨rfl, fun j hj => absurd hj (Fin.not_lt_zero j)⟩
  · rw [pendingInterrupt_eq_none]
    intro i
    rw [requests_timerCheck_of_tick h, hmasked, Bool.false_and]
  · rw [timerCheck_reg, if_pos rfl, timerStatus_of_tick h]

end Sys2Proof.Machine

/-! O56, O57, O58, O59, O60. What each instruction may write is a table, and every instruction writes nothing else,
whatever its operand bytes and on every path, a fault included (R89). The five frames read the table off. -/

namespace Sys2Proof.Machine

/-- What may be written: registers, memory addresses, flag bits, the two outputs, and HALTED to `run`. The program
counter and a fault may always be written. -/
structure Writes where
  reg : Reg → Prop := fun _ => False
  mem : Nat → Prop := fun _ => False
  fl : Nat → Prop := fun _ => False
  hint : Prop := False
  prn : Prop := False
  halt : Prop := False

/-- `t` differs from `s` only in what `w` allows. -/
structure WritesOnly (w : Writes) (s t : State) : Prop where
  reg : ∀ r, ¬w.reg r → t.reg r = s.reg r
  mem : ∀ k, ¬w.mem k → t.mem.get k = s.mem.get k
  fl : ∀ k, ¬w.fl k → t.fl.getLsbD k = s.fl.getLsbD k
  hint : ¬w.hint → t.hint = s.hint
  prn : ¬w.prn → t.prn = s.prn
  ticks : t.ticks = s.ticks
  cycle : t.cycle = s.cycle
  run : ¬w.halt → t.run = s.run ∨ ∃ c, t.run = .faulted c

/-- The writes of each instruction from `s` (R100 to R161). -/
def writesOf (s : State) : Instr → Writes
  | .hlt => { halt := True }
  | .prn _ => { prn := True }
  | .pra _ => { hint := True }
  | .jmp _ | .jeq _ | .jne _ => {}
  | .cmp _ _ => { fl := (· < 3) }
  | .ldi a _ | .addi a _ | .not a => { reg := (regByte · = a) }
  | .add a _ | .mul a _ | .mod a _ | .and a _ | .or a _ | .xor a _ | .shl a _ | .shr a _ =>
    { reg := (regByte · = a) }
  | .st a _ => { mem := fun k => ∃ r, regOf a = some r ∧ k = (storeAddress s r).toNat }
  | .push _ | .call _ => { reg := (· = 7), mem := (· = (pushAddress s).toNat) }
  | .pop a => { reg := fun r => r = 7 ∨ regByte r = a }
  | .ret => { reg := (· = 7) }
  | .iret => { reg := fun _ => True, fl := fun _ => True }

namespace WritesOnly

variable {w : Writes} {s t : State}

theorem refl (w : Writes) (s : State) : WritesOnly w s s :=
  ⟨fun _ _ => rfl, fun _ _ => rfl, fun _ _ => rfl, fun _ => rfl, fun _ => rfl, rfl, rfl, fun _ => .inl rfl⟩

variable (h : WritesOnly w s t)
include h

/-! Each named update of the state, if its target may be written. -/

theorem raise (c : FatalCause) : WritesOnly w s (t.raise c) :=
  { h with run := fun _ => .inr ⟨c, rfl⟩ }

theorem setPc (n : Nat) : WritesOnly w s (t.setPc n) :=
  { h with }

theorem advance (n : Nat) : WritesOnly w s (t.advance n) :=
  { h with }

theorem setReg {r : Reg} (hr : w.reg r) (v : Byte) : WritesOnly w s (t.setReg r v) :=
  { h with reg := fun q hq => (reg_setReg_other t r q v fun e => hq (e ▸ hr)).trans (h.reg q hq) }

theorem writeMem {a : Byte} (ha : w.mem a.toNat) (v : Byte) : WritesOnly w s (t.writeMem a v) :=
  { h with mem := fun k hk => (get_set_other t.mem a.toNat k v fun e => hk (e ▸ ha)).trans (h.mem k hk) }

theorem setFl (hfl : ∀ k, w.fl k) (v : Byte) : WritesOnly w s (t.setFl v) :=
  { h with fl := fun k hk => absurd (hfl k) hk }

theorem orFlag {f : Byte} (hf : ∀ k, f.getLsbD k = true → w.fl k) : WritesOnly w s (t.orFlag f) :=
  { h with fl := fun k hk => by simpa [mt (hf k) hk] using h.fl k hk }

theorem appendHint (hw : w.hint) (v : Byte) : WritesOnly w s (t.appendHint v) :=
  { h with hint := absurd hw }

theorem appendPrn (hw : w.prn) (v : Byte) : WritesOnly w s (t.appendPrn v) :=
  { h with prn := absurd hw }

theorem halt (hw : w.halt) : WritesOnly w s (t.setRun .halted) :=
  { h with run := absurd hw }

/-- A push writes SP and the byte below it. -/
theorem pushed (h7 : w.reg 7) (hm : w.mem (pushAddress t).toNat) (v : Byte) :
    WritesOnly w s ((t.setReg 7 (t.reg 7 - 1#8)).writeMem (pushAddress t) v) :=
  (h.setReg h7 _).writeMem hm v

/-- With no bit of `fl` to be written, `fl` stays. -/
theorem fl_eq (hfl : ∀ k, ¬w.fl k) : t.fl = s.fl :=
  BitVec.eq_of_getLsbD_eq fun k _ => h.fl k (hfl k)

end WritesOnly

/-- A comparison sets one of the bits 0 to 2 (R103). -/
theorem lt_three_of_getLsbD_compareFlag {x y : Byte} {k : Nat} (h : (compareFlag x y).getLsbD k = true) : k < 3 := by
  have hlt : (compareFlag x y).toNat < 2 ^ 3 := by
    unfold compareFlag
    split
    · decide
    · split <;> decide
  refine Nat.lt_of_not_le fun hk => ?_
  have hzero := Nat.testBit_lt_two_pow (Nat.lt_of_lt_of_le hlt (Nat.pow_le_pow_right Nat.two_pos hk))
  exact Bool.false_ne_true (hzero.symm.trans h)

/-- Every instruction writes what the table says and nothing else (R89). -/
theorem exec_writesOnly {i : Instr} {s t : State} (ht : exec i s = .next t) : WritesOnly (writesOf s i) s t := by
  have same := WritesOnly.refl (writesOf s i) s
  refine next_satisfies ?_ ht
  cases i with
  | hlt => exact ⟨_, rfl, same.halt trivial⟩
  | iret =>
    exact ⟨_, rfl, interruptReturn_keeps _ (fun _ c h => h.raise c) (fun _ _ v h => h.setReg trivial v)
      (fun _ v h => h.setFl (fun _ => trivial) v) (fun _ v h => h.setPc v.toNat) s same⟩
  | ldi a _ | addi a _ | not a =>
    exact ⟨_, rfl, withReg_final _ a s _ (same.raise _) fun _ hr => (same.setReg hr.symm _).advance _⟩
  | add a b | mul a b | and a b | or a b | xor a b | shl a b | shr a b =>
    exact ⟨_, rfl, withRegs_final _ a b s _ (same.raise _) fun _ _ hr _ => (same.setReg hr.symm _).advance _⟩
  | mod a b =>
    refine ⟨_, rfl, withRegs_final _ a b s _ (same.raise _) fun _ _ hr _ => ?_⟩
    split
    · exact same.raise _
    · exact (same.setReg hr.symm _).advance _
  | cmp a b =>
    exact ⟨_, rfl, withRegs_final _ a b s _ (same.raise _) fun _ _ _ _ =>
      (same.orFlag fun _ => lt_three_of_getLsbD_compareFlag).advance _⟩
  | prn a => exact ⟨_, rfl, withReg_final _ a s _ (same.raise _) fun _ _ => (same.appendPrn trivial _).advance _⟩
  | pra a => exact ⟨_, rfl, withReg_final _ a s _ (same.raise _) fun _ _ => (same.appendHint trivial _).advance _⟩
  | jmp a => exact ⟨_, rfl, withReg_final _ a s _ (same.raise _) fun _ _ => same.setPc _⟩
  | jeq a =>
    refine ⟨_, rfl, withReg_final _ a s _ (same.raise _) fun _ _ => ?_⟩
    rw [final_ok]
    split
    · exact same.setPc _
    · exact same.advance _
  | jne a =>
    refine ⟨_, rfl, withReg_final _ a s _ (same.raise _) fun _ _ => ?_⟩
    rw [final_ok]
    split
    · exact same.advance _
    · exact same.setPc _
  | st a b =>
    exact ⟨_, rfl, withRegs_final _ a b s _ (same.raise _) fun r _ hr _ =>
      (same.writeMem ⟨r, (regOf_eq_some a r).mpr hr, rfl⟩ _).advance _⟩
  | push a =>
    exact ⟨_, rfl, withReg_final _ a s _ (same.raise _) fun _ _ =>
      push_then_final _ _ s (·.advance 2) (same.raise _) ((same.pushed rfl rfl _).advance 2)⟩
  | call a =>
    refine ⟨_, rfl, withReg_final _ a s _ (same.raise _) fun r _ => ?_⟩
    split
    · exact same.raise _
    · exact push_then_final _ _ s (·.setPc (s.reg r).toNat) (same.raise _) ((same.pushed rfl rfl _).setPc _)
  | pop a =>
    exact ⟨_, rfl, withReg_final _ a s _ (same.raise _) fun r hr =>
      pop_then_final _ s (fun v u => (u.setReg r v).advance 2) (same.raise _) fun v =>
        ((same.setReg (.inl rfl) _).setReg (.inr hr.symm) v).advance 2⟩
  | ret =>
    exact ⟨_, rfl, pop_then_final _ s (fun v u => u.setPc v.toNat) (same.raise _) fun v =>
      (same.setReg rfl _).setPc v.toNat⟩

/-- Settles O56. -/
theorem frameOfRegisterWriters : Obligations.FrameOfRegisterWriters := by
  intro i a b s t hi ht
  have hw : writesOf s i = { reg := (regByte · = a) } := by
    simp only [List.mem_cons, List.not_mem_nil, or_false] at hi
    rcases hi with rfl | rfl | rfl | rfl | rfl | rfl | rfl | rfl | rfl | rfl | rfl <;> rfl
  have h := exec_writesOnly ht
  rw [hw] at h
  exact ⟨h.reg, h.fl_eq fun _ => id, fun k => h.mem k id, h.hint id, h.prn id, h.ticks, h.cycle, h.run id⟩

/-- Settles O57: each of the writes is tied to the one instruction that may make it. -/
theorem frameOfCompareOutputJumpHalt : Obligations.FrameOfCompareOutputJumpHalt := by
  intro i a b s t hi ht
  have hw : writesOf s i =
      { fl := fun k => i = .cmp a b ∧ k < 3, hint := i = .pra a, prn := i = .prn a, halt := i = .hlt } := by
    simp only [List.mem_cons, List.not_mem_nil, or_false] at hi
    rcases hi with rfl | rfl | rfl | rfl | rfl | rfl | rfl <;>
      simp only [writesOf, reduceCtorEq, false_and, true_and]
  have h := exec_writesOnly ht
  rw [hw] at h
  exact ⟨fun r => h.reg r id, fun k => h.mem k id, fun hcmp => h.fl_eq fun _ hk => hcmp hk.1,
    fun k hk => h.fl k fun hlt => Nat.not_lt.mpr hk hlt.2, h.hint, h.prn, h.ticks, h.cycle, h.run⟩

/-- Settles O58: the address ST may write is that of the register its first byte names, and there is none if that byte
names no register. -/
theorem frameOfStores : Obligations.FrameOfStores := by
  refine fun a b s t => ⟨fun ht => ?st, fun i hi ht => ?push⟩
  case st =>
    have h := exec_writesOnly ht
    refine ⟨fun r => h.reg r id, fun ra k hra hk => h.mem k ?_, fun hnone k => h.mem k ?_, h.fl_eq fun _ => id,
      h.hint id, h.prn id, h.ticks, h.cycle, h.run id⟩
    · rintro ⟨r, hr, rfl⟩
      cases hr.symm.trans hra
      exact hk rfl
    · rintro ⟨r, hr, -⟩
      cases hr.symm.trans hnone
  case push =>
    have hw : writesOf s i = { reg := (· = 7), mem := (· = (pushAddress s).toNat) } := by
      simp only [List.mem_cons, List.not_mem_nil, or_false] at hi
      rcases hi with rfl | rfl <;> rfl
    have h := exec_writesOnly ht
    rw [hw] at h
    exact ⟨h.reg, h.mem, h.fl_eq fun _ => id, h.hint id, h.prn id, h.ticks, h.cycle, h.run id⟩

/-- Settles O59: of the two only POP may write a second register. -/
theorem frameOfPopAndRet : Obligations.FrameOfPopAndRet := by
  intro i a s t hi ht
  have hw : writesOf s i = { reg := fun r => r = 7 ∨ i ≠ .ret ∧ regByte r = a } := by
    simp only [List.mem_cons, List.not_mem_nil, or_false] at hi
    rcases hi with rfl | rfl <;>
      simp only [writesOf, reduceCtorEq, false_and, true_and, ne_eq, not_true_eq_false, not_false_eq_true, or_false]
  have h := exec_writesOnly ht
  rw [hw] at h
  refine ⟨fun r h7 ha => h.reg r ?_, fun hret r h7 => h.reg r ?_, fun k => h.mem k id, h.fl_eq fun _ => id, h.hint id,
    h.prn id, h.ticks, h.cycle, h.run id⟩
  · exact not_or.mpr ⟨h7, fun hpop => ha hpop.2⟩
  · exact not_or.mpr ⟨h7, fun hpop => hpop.1 hret⟩

/-- Settles O60. -/
theorem frameOfIret : Obligations.FrameOfIret := by
  intro s t ht
  have h := exec_writesOnly ht
  exact ⟨fun k => h.mem k id, h.hint id, h.prn id, h.ticks, h.cycle, h.run id⟩

end Sys2Proof.Machine

/-! O13, O14, O15, O16, O17, O18. The ALU instructions share one effect, a write of register `a` and an advance of `pc`
(R100), said once; what is left of each is the value its operation computes on bytes (R101 to R111). -/

namespace Sys2Proof.Machine

/-! The effect. -/

/-- After a write of one register and an advance, the register holds the value and nothing else but `pc` changed. -/
theorem setReg_advance_result (s : State) (r : Reg) (v : Byte) (w : Nat) :
    ∃ t, Ran.outcome (.ok () ((s.setReg r v).advance w)) = .next t ∧ t.reg r = v ∧
      t = { s.setReg r (t.reg r) with pc := s.pc + w } := by
  have hv : ((s.setReg r v).advance w).reg r = v := by rw [advance_reg, reg_setReg_same]
  refine ⟨(s.setReg r v).advance w, rfl, hv, ?_⟩
  rw [hv]
  rfl

/-- A two-operand ALU instruction leaves its operation's value in register `a` and advances `pc` by 3 (R100). -/
theorem aluBinary_result (f : Byte → Byte → Byte) (s : State) (ra rb : Reg) :
    ∃ t, (aluBinary f (regByte ra) (regByte rb) s).outcome = .next t ∧ t.reg ra = f (s.reg ra) (s.reg rb) ∧
      t = { s.setReg ra (t.reg ra) with pc := s.pc + 3 } := by
  rw [aluBinary, withRegs_regByte]
  exact setReg_advance_result s ra _ 3

theorem execNot_result (s : State) (r : Reg) :
    ∃ t, execNot (regByte r) s = .next t ∧ t.reg r = aluNot (s.reg r) ∧
      t = { s.setReg r (t.reg r) with pc := s.pc + 2 } := by
  rw [execNot, withReg_regByte]
  exact setReg_advance_result s r _ 2

theorem execMod_result {s : State} {rb : Reg} (h : s.reg rb ≠ 0#8) (ra : Reg) :
    ∃ t, execMod (regByte ra) (regByte rb) s = .next t ∧ t.reg ra = aluMod (s.reg ra) (s.reg rb) ∧
      t = { s.setReg ra (t.reg ra) with pc := s.pc + 3 } := by
  rw [execMod, withRegs_regByte, if_neg h]
  exact setReg_advance_result s ra _ 3

theorem execMod_zero {s : State} {rb : Reg} (h : s.reg rb = 0#8) (ra : Reg) :
    execMod (regByte ra) (regByte rb) s = .next (s.raise .moduloByZero) := by
  rw [execMod, withRegs_regByte, if_pos h]
  rfl

theorem execCmp_regByte (s : State) (ra rb : Reg) :
    execCmp (regByte ra) (regByte rb) s =
      .next ((s.orFlag (compareFlag (s.reg ra) (s.reg rb))).advance 3) := by
  rw [execCmp, withRegs_regByte]
  rfl

theorem getLsbD_fl_orFlag (s : State) (f : Byte) (k : Nat) :
    (s.orFlag f).fl.getLsbD k = (s.fl.getLsbD k || f.getLsbD k) := by
  rw [orFlag_fl, BitVec.getLsbD_or]

/-! The values. -/

theorem narrow_toNat (n : Nat) : (narrow n).toNat = n % 256 :=
  BitVec.toNat_ofNat n 8

theorem narrow_toNat_of_lt {n : Nat} (h : n < 256) : (narrow n).toNat = n := by
  rw [narrow_toNat, Nat.mod_eq_of_lt h]

theorem getLsbD_narrow {n k : Nat} (h : k < 8) : (narrow n).getLsbD k = n.testBit k := by
  rw [narrow, BitVec.getLsbD_ofNat, decide_eq_true h, Bool.true_and]

theorem aluNot_toNat (x : Byte) : (aluNot x).toNat = 255 - x.toNat :=
  narrow_toNat_of_lt (Nat.lt_succ_of_le (Nat.sub_le 255 x.toNat))

theorem aluShr_toNat (x y : Byte) : (aluShr x y).toNat = x.toNat / 2 ^ y.toNat :=
  narrow_toNat_of_lt (Nat.lt_of_le_of_lt (Nat.div_le_self _ _) x.isLt)

theorem aluMod_toNat (x y : Byte) : (aluMod x y).toNat = x.toNat % y.toNat :=
  narrow_toNat_of_lt (Nat.lt_of_le_of_lt (Nat.mod_le _ _) x.isLt)

/-- Bits below the amount are 0, and bit `k` comes from below (R108). -/
theorem getLsbD_aluShl (x y : Byte) {k : Nat} (h : k < 8) :
    (aluShl x y).getLsbD k = (decide (y.toNat ≤ k) && x.getLsbD (k - y.toNat)) := by
  rw [aluShl, getLsbD_narrow h, Nat.testBit_mul_two_pow]
  rfl

/-- Bit `k` comes from above, where a byte has only 0 past bit 7 (R109). -/
theorem getLsbD_aluShr (x y : Byte) {k : Nat} (h : k < 8) :
    (aluShr x y).getLsbD k = x.getLsbD (k + y.toNat) := by
  rw [aluShr, getLsbD_narrow h, Nat.testBit_div_two_pow, Nat.add_comm]
  rfl

/-- Each flag bit of a comparison says which of the three orders holds (R29, R103). -/
theorem getLsbD_compareFlag (x y : Byte) :
    (compareFlag x y).getLsbD 0 = decide (y.toNat < x.toNat) ∧
    (compareFlag x y).getLsbD 1 = decide (x.toNat = y.toNat) ∧
    (compareFlag x y).getLsbD 2 = decide (x.toNat < y.toNat) := by
  rcases Nat.lt_trichotomy x.toNat y.toNat with h | h | h
  · have hgt : ¬y.toNat < x.toNat := Nat.lt_asymm h
    have hne : x.toNat ≠ y.toNat := Nat.ne_of_lt h
    rw [compareFlag, if_neg hgt, if_neg hne, decide_eq_false hgt, decide_eq_false hne, decide_eq_true h]
    decide
  · have hgt : ¬y.toNat < x.toNat := Nat.not_lt_of_le (Nat.le_of_eq h)
    have hlt : ¬x.toNat < y.toNat := Nat.not_lt_of_le (Nat.le_of_eq h.symm)
    rw [compareFlag, if_neg hgt, if_pos h, decide_eq_false hgt, decide_eq_true h, decide_eq_false hlt]
    decide
  · have hne : x.toNat ≠ y.toNat := Nat.ne_of_gt h
    have hlt : ¬x.toNat < y.toNat := Nat.lt_asymm h
    rw [compareFlag, if_pos h, decide_eq_true h, decide_eq_false hne, decide_eq_false hlt]
    decide

theorem getLsbD_compareFlag_of_le {x y : Byte} {k : Nat} (h : 3 ≤ k) : (compareFlag x y).getLsbD k = false :=
  Bool.eq_false_iff.mpr fun hk => absurd (lt_three_of_getLsbD_compareFlag hk) (Nat.not_lt.mpr h)

/-! The statements. -/

/-- Settles O13. -/
theorem addMulResult : Obligations.AddMulResult := by
  intro s ra rb
  refine ⟨?add, ?mul⟩
  case add =>
    obtain ⟨t, ht, hv, hframe⟩ := aluBinary_result aluAdd s ra rb
    exact ⟨t, ht, by rw [hv, aluAdd, narrow_toNat], hframe⟩
  case mul =>
    obtain ⟨t, ht, hv, hframe⟩ := aluBinary_result aluMul s ra rb
    exact ⟨t, ht, by rw [hv, aluMul, narrow_toNat], hframe⟩

/-- Settles O14. -/
theorem bitwiseResult : Obligations.BitwiseResult := by
  intro s ra rb
  refine ⟨?and, ?or, ?xor, ?not⟩
  case and =>
    obtain ⟨t, ht, hv, hframe⟩ := aluBinary_result aluAnd s ra rb
    exact ⟨t, ht, fun k => by rw [hv, aluAnd, BitVec.getLsbD_and], hframe⟩
  case or =>
    obtain ⟨t, ht, hv, hframe⟩ := aluBinary_result aluOr s ra rb
    exact ⟨t, ht, fun k => by rw [hv, aluOr, BitVec.getLsbD_or], hframe⟩
  case xor =>
    obtain ⟨t, ht, hv, hframe⟩ := aluBinary_result aluXor s ra rb
    exact ⟨t, ht, fun k => by rw [hv, aluXor, BitVec.getLsbD_xor], hframe⟩
  case not =>
    obtain ⟨t, ht, hv, hframe⟩ := execNot_result s ra
    exact ⟨t, ht, by rw [hv, aluNot_toNat], hframe⟩

/-- Settles O15: the value is computed on natural numbers, whose bits a factor or divisor `2 ^ n` moves by `n`. -/
theorem shiftResult : Obligations.ShiftResult := by
  intro s ra rb
  refine ⟨?shl, ?shr⟩
  case shl =>
    obtain ⟨t, ht, hv, hframe⟩ := aluBinary_result aluShl s ra rb
    exact ⟨t, ht, by rw [hv, aluShl, narrow_toNat], fun k hk => by rw [hv, getLsbD_aluShl _ _ hk], hframe⟩
  case shr =>
    obtain ⟨t, ht, hv, hframe⟩ := aluBinary_result aluShr s ra rb
    exact ⟨t, ht, by rw [hv, aluShr_toNat], fun k hk => by rw [hv, getLsbD_aluShr _ _ hk], hframe⟩

/-- Settles O16: the remainder is below the divisor, and the quotient is the one of natural numbers. -/
theorem modResult : Obligations.ModResult := by
  intro s ra rb h
  obtain ⟨t, ht, hv, hframe⟩ := execMod_result h ra
  have hrem : (t.reg ra).toNat = (s.reg ra).toNat % (s.reg rb).toNat := by rw [hv, aluMod_toNat]
  have hpos : 0 < (s.reg rb).toNat := Nat.pos_of_ne_zero fun h0 => h (BitVec.eq_of_toNat_eq h0)
  refine ⟨t, ht, ?_, ⟨(s.reg ra).toNat / (s.reg rb).toNat, ?_⟩, hframe⟩
  · rw [hrem]
    exact Nat.mod_lt _ hpos
  · rw [hrem, Nat.div_add_mod']

/-- Settles O17: the raise writes `run` alone. -/
theorem modByZeroFaults : Obligations.ModByZeroFaults :=
  fun _ ra _ h => execMod_zero h ra

/-- Settles O18: bit `k` of `fl` afterwards is its old bit or that of the comparison's flag. -/
theorem cmpResult : Obligations.CmpResult := by
  intro s ra rb
  obtain ⟨hG, hE, hL⟩ := getLsbD_compareFlag (s.reg ra) (s.reg rb)
  refine ⟨_, execCmp_regByte s ra rb, ?_, ?_, ?_, fun k hk => ?_, rfl⟩ <;> rw [advance_fl, getLsbD_fl_orFlag]
  · rw [hG]
  · rw [hE]
  · rw [hL]
  · rw [getLsbD_compareFlag_of_le hk, Bool.or_false]

end Sys2Proof.Machine

/-! O19, O20, O21, O23. With operands that name registers, LDI and ADDI are a write of register `a`, PRN an append to
the print stream and ST a store of one byte, each before an advance of `pc` (R120 to R122, R130); the rest is reading
back what was written. -/

namespace Sys2Proof.Machine

theorem exec_ldi_regByte (r : Reg) (imm : Byte) (s : State) :
    exec (.ldi (regByte r) imm) s = .next ((s.setReg r imm).advance 3) := by
  rw [exec, execLdi, withReg_regByte]
  rfl

theorem exec_addi_regByte (r : Reg) (imm : Byte) (s : State) :
    exec (.addi (regByte r) imm) s = .next ((s.setReg r (aluAdd (s.reg r) imm)).advance 3) := by
  rw [exec, execAddi, withReg_regByte]
  rfl

theorem exec_prn_regByte (r : Reg) (s : State) :
    exec (.prn (regByte r)) s = .next ((s.appendPrn (s.reg r)).advance 2) := by
  rw [exec, execPrn, withReg_regByte]
  rfl

theorem reg_setReg_advance_same (s : State) (r : Reg) (v : Byte) (w : Nat) :
    ((s.setReg r v).advance w).reg r = v := by
  rw [advance_reg, reg_setReg_same]

theorem reg_setReg_advance_other (s : State) {r q : Reg} (v : Byte) (w : Nat) (h : q ≠ r) :
    ((s.setReg r v).advance w).reg q = s.reg q := by
  rw [advance_reg, reg_setReg_other s r q v h.symm]

/-- Settles O21: neither register is in what the store and the advance write. -/
theorem stResult : Obligations.StResult := by
  intro s ra rb
  refine ⟨rfl, _, exec_st_regByte ra rb s, ?stored, fun k hk => ?others, rfl⟩ <;>
    rw [advance_mem, writeMem_mem, storeAddress]
  case stored => exact get_set_same s.mem _ _
  case others => exact get_set_other s.mem _ k _ hk.symm

/-- Settles O23: PRN reads the register LDI has just written. -/
theorem ldiThenPrnPrintsImmediate : Obligations.LdiThenPrnPrintsImmediate := by
  intro s t r imm ht
  rw [exec_ldi_regByte] at ht
  cases ht
  refine ⟨_, exec_prn_regByte r _, ?prn, rfl, rfl⟩
  rw [reg_setReg_advance_same]
  rfl

/-- Settles O19. -/
theorem ldiResult : Obligations.LdiResult := by
  intro s r imm
  exact ⟨rfl, _, exec_ldi_regByte r imm s, reg_setReg_advance_same s r imm 3,
    fun _ hq => reg_setReg_advance_other s imm 3 hq, rfl⟩

/-- Settles O20: the sum is the one ADD computes, with the immediate for the second register (R101, R121). -/
theorem addiResult : Obligations.AddiResult := by
  intro s r imm
  refine ⟨rfl, _, exec_addi_regByte r imm s, ?sum, fun _ hq => reg_setReg_advance_other s _ 3 hq, rfl⟩
  rw [reg_setReg_advance_same, aluAdd, narrow_toNat]

end Sys2Proof.Machine

/-! O22. With an operand that names a register, PRA is an append to the HintBuffer before an advance of `pc` (R131), as
PRN is one to the print stream (R130). -/

namespace Sys2Proof.Machine

theorem exec_pra_regByte (r : Reg) (s : State) :
    exec (.pra (regByte r)) s = .next ((s.appendHint (s.reg r)).advance 2) := by
  rw [exec, execPra, withReg_regByte]
  rfl

/-- Settles O22. -/
theorem prnPraResult : Obligations.PrnPraResult :=
  fun s r => ⟨exec_prn_regByte r s, exec_pra_regByte r s⟩

end Sys2Proof.Machine

/-! O24 to O29, O32, O33. PUSH and CALL share the state a push leaves, and `wrap` leaves the same one (R140); what it
holds is said once. Where SP allows it, PUSH, POP, CALL and RET are a push or a pop before POP's write of the register
and a write of `pc` (R142 to R145), and the statements are read off these. -/

namespace Sys2Proof.Machine

/-! A push and a pop. -/

/-- The state a push of `v` that raises nothing leaves (R140). -/
def State.pushed (s : State) (v : Byte) : State :=
  (s.setReg 7 (s.reg 7 - 1#8)).writeMem (pushAddress s) v

theorem push_eq_pushed {s : State} (h : s.reg 7 ≠ 0#8) (v : Byte) : push v s = .ok () (s.pushed v) :=
  push_ok v s h

theorem pushWith_wrap (v : Byte) (s : State) : pushWith .wrap v s = .ok () (s.pushed v) := by
  rw [pushWith, if_neg nofun]
  rfl

theorem popWith_wrap (s : State) : popWith .wrap s = .ok (s.readMem (s.reg 7)) (s.setReg 7 (s.reg 7 + 1#8)) := by
  rw [popWith, if_neg nofun]

section Pushed
variable (s : State) (v : Byte)

@[simp] theorem pushed_sp : (s.pushed v).reg 7 = s.reg 7 - 1#8 := by
  rw [State.pushed, writeMem_reg, reg_setReg_same]

theorem pushed_reg_other {q : Reg} (h : q ≠ 7) : (s.pushed v).reg q = s.reg q := by
  rw [State.pushed, writeMem_reg, reg_setReg_other s 7 q _ h.symm]

theorem pushed_get (k : Nat) :
    (s.pushed v).mem.get k = if (pushAddress s).toNat = k then v else s.mem.get k :=
  get_set s.mem (pushAddress s).toNat k v

/-- The pushed byte lies where SP now points. -/
@[simp] theorem pushed_top : (s.pushed v).readMem (s.reg 7 - 1#8) = v :=
  readMem_writeMem_same _ (pushAddress s) v

theorem pushed_frame : s.pushed v = { s.setReg 7 ((s.pushed v).reg 7) with mem := (s.pushed v).mem } := by
  rw [pushed_sp]
  rfl

variable {s} (h : s.reg 7 ≠ 0#8)
include h

/-- Where SP is not 0, a push decrements it, puts the byte there and changes nothing else (R140). -/
theorem pushed_result :
    ((s.pushed v).reg 7).toNat = (s.reg 7).toNat - 1 ∧
      (s.pushed v).mem.get ((s.reg 7).toNat - 1) = v ∧
      (∀ k, k ≠ (s.reg 7).toNat - 1 → (s.pushed v).mem.get k = s.mem.get k) ∧
      s.pushed v = { s.setReg 7 ((s.pushed v).reg 7) with mem := (s.pushed v).mem } := by
  refine ⟨?sp, ?slot, fun k hk => ?others, pushed_frame s v⟩
  case sp => rw [pushed_sp, toNat_sub_one _ h]
  case slot => rw [pushed_get, if_pos (pushAddress_toNat s h)]
  case others => rw [pushed_get, pushAddress_toNat s h, if_neg hk.symm]

/-- Below a push there is a byte to pop. -/
theorem pushed_sp_ne : (s.pushed v).reg 7 ≠ 255#8 := by
  rw [pushed_sp]
  bv_omega

end Pushed

/-- Of two writes to one register the last stays (R21). -/
theorem setReg_setReg_same (s : State) (r : Reg) (v w : Byte) : (s.setReg r v).setReg r w = s.setReg r w := by
  rw [State.setReg, setReg_regs, Vector.set_set]
  rfl

theorem pcByte_toNat {n : Nat} (h : n ≤ 255) : (pcByte n).toNat = n := by
  rw [pcByte, BitVec.toNat_ofNat, Nat.mod_eq_of_lt (Nat.lt_succ_of_le h)]

/-! The four instructions, where the stack pointer allows them. -/

theorem exec_push_regByte {s : State} (h : s.reg 7 ≠ 0#8) (r : Reg) :
    exec (.push (regByte r)) s = .next ((s.pushed (s.reg r)).advance 2) := by
  rw [exec, execPush, withReg_regByte, push_eq_pushed h]
  rfl

theorem exec_pop_regByte {s : State} (h : s.reg 7 ≠ 255#8) (r : Reg) :
    exec (.pop (regByte r)) s =
      .next (((s.setReg 7 (s.reg 7 + 1#8)).setReg r (s.readMem (s.reg 7))).advance 2) := by
  rw [exec, execPop, withReg_regByte, pop_ok s h]
  rfl

theorem exec_call_regByte {s : State} (hpc : s.pc + 2 ≤ 255) (h : s.reg 7 ≠ 0#8) (r : Reg) :
    exec (.call (regByte r)) s = .next ((s.pushed (pcByte (s.pc + 2))).setPc (s.reg r).toNat) := by
  rw [exec, execCall, withReg_regByte, if_neg (Nat.not_lt_of_le hpc), push_eq_pushed h]
  rfl

theorem exec_ret {s : State} (h : s.reg 7 ≠ 255#8) :
    exec .ret s = .next ((s.setReg 7 (s.reg 7 + 1#8)).setPc (s.readMem (s.reg 7)).toNat) := by
  rw [exec, execRet, pop_ok s h]
  rfl

/-! The statements. -/

/-- Settles O24. -/
theorem pushResult : Obligations.PushResult := by
  intro s r h
  obtain ⟨hsp, hslot, hother, hframe⟩ := pushed_result (s.reg r) h
  exact ⟨_, exec_push_regByte h r, hsp, hslot, hother, congrArg (State.advance · 2) hframe⟩

/-- Settles O25: the popped byte is written after SP, so for R7 it is what stays. -/
theorem popResult : Obligations.PopResult := by
  intro s r h
  have hval : ((s.setReg 7 (s.reg 7 + 1#8)).setReg r (s.readMem (s.reg 7))).reg r = s.readMem (s.reg 7) :=
    reg_setReg_same _ r _
  refine ⟨_, exec_pop_regByte h r, hval, fun hr => ?sp, ?frame⟩ <;> simp only [advance_reg]
  case sp => rw [reg_setReg_other _ _ _ _ hr, reg_setReg_same, toNat_add_one _ h]
  case frame =>
    rw [hval]
    by_cases hr : r = 7
    · subst hr
      rw [reg_setReg_same, setReg_setReg_same, setReg_setReg_same]
      rfl
    · rw [reg_setReg_other _ _ _ _ hr, reg_setReg_same]
      rfl

/-- Settles O26: the return address fits the byte pushed. -/
theorem callResult : Obligations.CallResult := by
  intro s r hpc h
  obtain ⟨hsp, hslot, hother, hframe⟩ := pushed_result (pcByte (s.pc + 2)) h
  refine ⟨_, exec_call_regByte hpc h r, hsp, ?address, hother, congrArg (State.setPc · (s.reg r).toNat) hframe⟩
  rw [setPc_mem, hslot, pcByte_toNat hpc]

/-- Settles O27. -/
theorem retResult : Obligations.RetResult := by
  intro s h
  refine ⟨_, exec_ret h, ?sp, ?frame⟩ <;> rw [setPc_reg, reg_setReg_same]
  case sp => exact toNat_add_one _ h
  case frame => rfl

/-- Settles O28: each instruction meets its check before it writes anything, and the raise writes `run` alone. -/
theorem stackFaults : Obligations.StackFaults := by
  intro s r
  refine ⟨fun h => ?push, fun h => ?pop, fun h => ?ret, fun h => ?callAddress, fun hpc h => ?callStack⟩
  case push =>
    rw [exec, execPush, withReg_regByte, push_fault _ s h]
    rfl
  case pop =>
    rw [exec, execPop, withReg_regByte, pop_fault s h]
    rfl
  case ret =>
    rw [exec, execRet, pop_fault s h]
    rfl
  case callAddress =>
    rw [exec, execCall, withReg_regByte, if_pos h]
    rfl
  case callStack =>
    rw [exec, execCall, withReg_regByte, if_neg (Nat.not_lt_of_le hpc), push_fault _ s h]
    rfl

/-- Settles O29: `wrap` raises nothing, and 0 - 1 and 255 + 1 are 255 and 0 on bytes. -/
theorem wrapPolicyStack : Obligations.WrapPolicyStack := by
  intro s v
  refine ⟨fun h => ?push, fun h => ?pop⟩
  case push =>
    have hsp : (s.pushed v).reg 7 = 255#8 := by rw [pushed_sp, h]; rfl
    refine ⟨_, pushWith_wrap v s, hsp, fun k => ?mem, hsp ▸ pushed_frame s v⟩
    have haddr : (pushAddress s).toNat = 255 := by rw [pushAddress, h]; rfl
    rw [pushed_get, haddr]
    by_cases hk : k = 255
    · rw [if_pos hk, if_pos hk.symm]
    · rw [if_neg hk, if_neg (Ne.symm hk)]
  case pop =>
    rw [popWith_wrap, h]
    rfl

/-- Settles O32: POP finds the pushed byte where PUSH left SP, and the increment undoes the decrement. -/
theorem pushThenPopMoves : Obligations.PushThenPopMoves := by
  intro s q r h hr
  have hsp : s.reg 7 - 1#8 + 1#8 = s.reg 7 := BitVec.sub_add_cancel _ _
  have hpop := exec_pop_regByte (s := (s.pushed (s.reg q)).advance 2) (pushed_sp_ne (s.reg q) h) r
  rw [advance_reg, advance_readMem, pushed_sp, pushed_top, hsp] at hpop
  refine ⟨_, _, exec_push_regByte h q, hpop, ?moved, ?sp, fun p hp => ?others, rfl⟩ <;> rw [advance_reg]
  case moved => exact reg_setReg_same _ r _
  case sp => rw [reg_setReg_other _ _ _ _ hr, reg_setReg_same]
  case others =>
    rw [reg_setReg_other _ _ _ _ hp.symm]
    by_cases hp7 : p = 7
    · rw [hp7, reg_setReg_same]
    · rw [reg_setReg_other _ _ _ _ (Ne.symm hp7), advance_reg, pushed_reg_other s _ hp7]

/-- Settles O33: the slot and SP are all RET reads. -/
theorem callThenRetReturns : Obligations.CallThenRetReturns := by
  intro s t u r hpc h ht hsp hslot
  rw [exec_call_regByte hpc h] at ht
  cases ht
  rw [setPc_reg, setPc_readMem, pushed_sp, pushed_top] at hslot
  rw [setPc_reg] at hsp
  have hne : u.reg 7 ≠ 255#8 := hsp ▸ pushed_sp_ne _ h
  rw [pushed_sp] at hsp
  rw [exec_ret hne, hsp, hslot, BitVec.sub_add_cancel, pcByte_toNat hpc]
  rfl

end Sys2Proof.Machine

/-! O30, O31. The jumps write `pc` alone (R146 to R148). -/

namespace Sys2Proof.Machine

theorem exec_jmp_regByte (r : Reg) (s : State) : exec (.jmp (regByte r)) s = .next (s.setPc (s.reg r).toNat) := by
  rw [exec, execJmp, withReg_regByte]
  rfl

theorem exec_jeq_regByte (r : Reg) (s : State) :
    exec (.jeq (regByte r)) s = .next (if s.equalFlag then s.setPc (s.reg r).toNat else s.advance 2) := by
  rw [exec, execJeq, withReg_regByte]
  rfl

theorem exec_jne_regByte (r : Reg) (s : State) :
    exec (.jne (regByte r)) s = .next (if s.equalFlag then s.advance 2 else s.setPc (s.reg r).toNat) := by
  rw [exec, execJne, withReg_regByte]
  rfl

/-- Settles O30. -/
theorem jmpResult : Obligations.JmpResult :=
  fun s r => ⟨rfl, exec_jmp_regByte r s⟩

/-- Settles O31: taken or not, a branch is one write of `pc`, and the Equal flag is bit 1 of `fl` (R29). -/
theorem branchResult : Obligations.BranchResult := by
  intro s r
  rw [exec_jeq_regByte, exec_jne_regByte, ← State.equalFlag]
  cases s.equalFlag with
  | true => exact ⟨rfl, rfl⟩
  | false => exact ⟨rfl, rfl⟩

end Sys2Proof.Machine

/-! O34, O35, O36, O43. HLT writes `run`. What the nine pops of IRET load, and that they fault where SP is too high for
them, is said once of `interruptReturn` (R161); what interrupt entry leaves on the stack is said once of
`interruptEntry` (R180). That IRET undoes an entry is the two read together (R186). -/

namespace Sys2Proof.Machine

/-! The return. -/

theorem exec_iret (s : State) : exec .iret s = .next (interruptReturn s).final := rfl

/-- IRET's pops go down from `x[6]`, so register `r` is popped at place `6 - r` (R161). -/
theorem getElem_returnOrder {r : Reg} (h : r ≠ 7) :
    ∃ hk : 6 - r.val < [6, 5, 4, 3, 2, 1, (0 : Reg)].length, [6, 5, 4, 3, 2, 1, (0 : Reg)][6 - r.val] = r := by
  revert r; decide

/-- IRET's last two pops, where SP allows them: the byte at SP goes to `fl`, the next one to `pc` (R161). -/
theorem pop_fl_then_pc_ok {s : State} (h : (s.reg 7).toNat ≤ 253) :
    ((pop s).andThen fun f t => (pop (t.setFl f)).andThen fun p u => .ok () (u.setPc p.toNat)) =
      .ok () (((s.setReg 7 (s.reg 7 + 2#8)).setFl (s.readMem (s.reg 7))).setPc
        (s.readMem (s.reg 7 + 1#8)).toNat) := by
  have hne1 : s.reg 7 ≠ 255#8 := by bv_omega
  have hne2 : s.reg 7 + 1#8 ≠ 255#8 := by bv_omega
  have hpop := pop_ok ((s.setReg 7 (s.reg 7 + 1#8)).setFl (s.readMem (s.reg 7)))
  rw [setFl_reg, reg_setReg_same] at hpop
  have hsp : s.reg 7 + 1#8 + 1#8 = s.reg 7 + 2#8 := BitVec.add_assoc _ _ _
  rw [pop_ok s hne1, andThen_ok, hpop hne2, andThen_ok, hsp,
    ← setReg_setReg_same s 7 (s.reg 7 + 1#8) (s.reg 7 + 2#8)]
  rfl

/-- With SP at most 246 the nine pops succeed: registers 6 to 0, `fl` and `pc` come from the nine bytes at SP, SP rises
by 9, and nothing else changes (R161, R186). -/
theorem interruptReturn_ok {s : State} (h : (s.reg 7).toNat ≤ 246) :
    ∃ t, interruptReturn s = .ok () t ∧
      (∀ r : Reg, r ≠ 7 → t.reg r = s.mem.get ((s.reg 7).toNat + (6 - r.val))) ∧
      (t.reg 7).toNat = (s.reg 7).toNat + 9 ∧
      t.fl = s.mem.get ((s.reg 7).toNat + 7) ∧
      t.pc = (s.mem.get ((s.reg 7).toNat + 8)).toNat ∧
      t = { s with regs := t.regs, fl := t.fl, pc := t.pc } := by
  obtain ⟨s1, hpops, (hsp : (s1.reg 7).toNat = (s.reg 7).toNat + 7), hval, -, hframe⟩ :=
    popRegs_ok [6, 5, 4, 3, 2, 1, 0] (by decide) (by decide) s (Nat.le_trans (Nat.add_le_add_right h 7) (by decide))
  have hmem : s1.mem = s.mem := by rw [hframe]
  have htail := pop_fl_then_pc_ok (s := s1) (by omega)
  refine ⟨_, by rw [interruptReturn, hpops, andThen_ok, htail], fun r hr => ?regs, ?sp, ?fl, ?pc, ?frame⟩
  case regs =>
    obtain ⟨hk, hplace⟩ := getElem_returnOrder hr
    rw [setPc_reg, setFl_reg, reg_setReg_other _ _ _ _ hr.symm, ← hval _ hk, hplace]
  case sp =>
    rw [setPc_reg, setFl_reg, reg_setReg_same]
    bv_omega
  case fl => rw [setPc_fl, setFl_fl, State.readMem, hsp, hmem]
  case pc =>
    have haddr : (s1.reg 7 + 1#8).toNat = (s.reg 7).toNat + 8 := by bv_omega
    rw [setPc_pc, State.readMem, haddr, hmem]
  case frame =>
    rw [hframe]
    rfl

/-- With SP 247 or more one of the nine pops finds SP at 255 and raises (R141, R161). -/
theorem interruptReturn_fault {s : State} (h : 247 ≤ (s.reg 7).toNat) :
    ∃ t, interruptReturn s = .raised t ∧ t.run = .faulted .stackPointerOutOfRange := by
  rcases popRegs_cases [6, 5, 4, 3, 2, 1, 0] (by decide) s with
    ⟨s1, hpops, (hsp : (s1.reg 7).toNat = (s.reg 7).toNat + 7)⟩ | ⟨-, t, hpops, hrun⟩
  · rw [interruptReturn, hpops, andThen_ok]
    rcases pop_cases s1 with ⟨hne, hpop1⟩ | ⟨-, hpop1⟩
    · have hfull : ((s1.setReg 7 (s1.reg 7 + 1#8)).setFl (s1.readMem (s1.reg 7))).reg 7 = 255#8 := by
        rw [setFl_reg, reg_setReg_same]
        bv_omega
      exact ⟨_, by rw [hpop1, andThen_ok, pop_fault _ hfull, andThen_raised], rfl⟩
    · exact ⟨_, by rw [hpop1, andThen_raised], rfl⟩
  · exact ⟨t, by rw [interruptReturn, hpops, andThen_raised], hrun⟩

/-! Interrupt entry. -/

/-- The state of an entry after its first two pushes, from which the vector is read (R179). -/
def State.entryPushed (s : State) : State :=
  ((s.setReg 6 0#8).pushed (pcByte s.pc)).pushed s.fl

theorem entryPushed_reg_other (s : State) {r : Reg} (h : r ≠ 7) : s.entryPushed.reg r = (s.setReg 6 0#8).reg r := by
  rw [State.entryPushed, pushed_reg_other _ _ h, pushed_reg_other _ _ h]

/-- Entry pushes the registers going up from `x[0]`, so register `r` is pushed at place `r` (R179). -/
theorem getElem_entryOrder {r : Reg} (h : r ≠ 7) :
    ∃ hk : r.val < [0, 1, 2, 3, 4, 5, (6 : Reg)].length, [0, 1, 2, 3, 4, 5, (6 : Reg)][r.val] = r := by
  revert r; decide

section Entry
variable {s : State} (h : 9 ≤ (s.reg 7).toNat)
include h

theorem sp_ne_of_statusCleared : (s.setReg 6 0#8).reg 7 ≠ 0#8 := by
  rw [reg_setReg_other _ _ _ _ (by decide)]
  bv_omega

theorem sp_ne_of_pcPushed : ((s.setReg 6 0#8).pushed (pcByte s.pc)).reg 7 ≠ 0#8 := by
  rw [pushed_sp, reg_setReg_other _ _ _ _ (by decide)]
  bv_omega

/-- Where the stack has room, the first two pushes put `pc` and `fl` below SP and lower it by 2. -/
theorem entryPushed_result :
    (s.entryPushed.reg 7).toNat = (s.reg 7).toNat - 2 ∧
      s.entryPushed.mem.get ((s.reg 7).toNat - 1) = pcByte s.pc ∧
      s.entryPushed.mem.get ((s.reg 7).toNat - 2) = s.fl := by
  obtain ⟨hsp1, hslot1, -, -⟩ := pushed_result (pcByte s.pc) (sp_ne_of_statusCleared h)
  rw [reg_setReg_other _ _ _ _ (by decide)] at hsp1 hslot1
  obtain ⟨hsp2, hslot2, hother2, -⟩ := pushed_result s.fl (sp_ne_of_pcPushed h)
  rw [hsp1] at hsp2 hslot2 hother2
  exact ⟨hsp2, (hother2 _ (by omega)).trans hslot1, hslot2⟩

/-- Where the stack has room, an entry pushes the seven registers after `pc` and `fl` and jumps through the vector. -/
theorem interruptEntry_eq (i : Fin 8) {t : State} (ht : pushRegs [0, 1, 2, 3, 4, 5, 6] s.entryPushed = .ok () t) :
    interruptEntry i s = .ok () (t.setPc (s.entryPushed.readMem (vectorAddress i)).toNat) := by
  have hfl : ((s.setReg 6 0#8).pushed (pcByte s.pc)).fl = s.fl := rfl
  rw [interruptEntry, push_eq_pushed (sp_ne_of_statusCleared h), andThen_ok, hfl,
    push_eq_pushed (sp_ne_of_pcPushed h), andThen_ok, ← State.entryPushed, ht, andThen_ok]

/-- The frame an entry leaves at SP: `x[6]`, already cleared, up to `x[0]`, then `fl`, then `pc` (R180). -/
theorem interruptEntry_stack {i : Fin 8} {t : State} (ht : interruptEntry i s = .ok () t) :
    (t.reg 7).toNat = (s.reg 7).toNat - 9 ∧
      (∀ r : Reg, r ≠ 7 → t.mem.get ((s.reg 7).toNat - 3 - r.val) = (s.setReg 6 0#8).reg r) ∧
      t.mem.get ((s.reg 7).toNat - 2) = s.fl ∧
      t.mem.get ((s.reg 7).toNat - 1) = pcByte s.pc := by
  obtain ⟨hsp, hpc, hfl⟩ := entryPushed_result h
  obtain ⟨t1, hpushes, hsp1, hval, hmem, -, -⟩ :=
    pushRegs_ok [0, 1, 2, 3, 4, 5, 6] (by decide) s.entryPushed (hsp ▸ Nat.sub_le_sub_right h 2)
  rw [interruptEntry_eq h i hpushes] at ht
  cases ht
  rw [hsp] at hsp1 hval hmem
  refine ⟨hsp1, fun r hr => ?regs, ?fl, ?pc⟩ <;> rw [setPc_mem]
  case regs =>
    obtain ⟨hk, hrk⟩ := getElem_entryOrder hr
    have hslot := hval _ hk
    rw [hrk, entryPushed_reg_other s hr] at hslot
    exact hslot
  case fl => rw [hmem _ (.inr (Nat.le_refl _)), hfl]
  case pc => rw [hmem _ (.inr (by omega)), hpc]

end Entry

/-! The statements. -/

/-- Settles O34. -/
theorem hltResult : Obligations.HltResult :=
  fun _ => rfl

/-- Settles O35. -/
theorem iretResult : Obligations.IretResult := by
  intro s h
  obtain ⟨t, ht, hresult⟩ := interruptReturn_ok h
  exact ⟨t, by rw [exec_iret, ht, final_ok], hresult⟩

/-- Settles O36: no pop and no raise writes memory or an output. -/
theorem iretStackFault : Obligations.IretStackFault := by
  intro s h
  obtain ⟨t, ht, hrun⟩ := interruptReturn_fault h
  have hkept : (interruptReturn s).final.mem = s.mem ∧ (interruptReturn s).final.hint = s.hint ∧
      (interruptReturn s).final.prn = s.prn :=
    interruptReturn_keeps (fun u => u.mem = s.mem ∧ u.hint = s.hint ∧ u.prn = s.prn) (fun _ _ h => h)
      (fun _ _ _ h => h) (fun _ _ h => h) (fun _ _ h => h) s ⟨rfl, rfl, rfl⟩
  rw [ht] at hkept
  exact ⟨t, by rw [exec_iret, ht, final_raised], hrun, hkept⟩

/-- Settles O43: IRET loads each of the nine places of the frame into what the entry pushed there. -/
theorem iretUndoesInterruptEntry : Obligations.IretUndoesInterruptEntry := by
  intro i s t u hpc hsp ht hu7 humem
  obtain ⟨ht7, hregs, hfl, hpcByte⟩ := interruptEntry_stack hsp ht
  have hu : (u.reg 7).toNat = (s.reg 7).toNat - 9 := by rw [hu7, ht7]
  obtain ⟨v, hv, hvregs, hv7, hvfl, hvpc, hframe⟩ := iretResult u (by omega)
  have hload : ∀ r : Reg, r ≠ 7 → v.reg r = (s.setReg 6 0#8).reg r := by
    intro r hr
    have hr7 : r.val ≠ 7 := Fin.val_ne_of_ne hr
    have hplace : (u.reg 7).toNat + (6 - r.val) = (s.reg 7).toNat - 3 - r.val := by omega
    rw [hvregs r hr, hplace, humem _ (by omega) (by omega), hregs r hr]
  refine ⟨v, hv, fun r hr => ?regs, ?reg6, ?fl, ?pc, ?mem, ?hint, ?prn, ?run⟩
  case regs =>
    by_cases hr7 : r = 7
    · rw [hr7]
      exact BitVec.eq_of_toNat_eq (by omega)
    · rw [hload r hr7, reg_setReg_other _ _ _ _ hr.symm]
  case reg6 => rw [hload 6 (by decide), reg_setReg_same]
  case fl =>
    have hplace : (u.reg 7).toNat + 7 = (s.reg 7).toNat - 2 := by omega
    rw [hvfl, hplace, humem _ (by omega) (by omega), hfl]
  case pc =>
    have hplace : (u.reg 7).toNat + 8 = (s.reg 7).toNat - 1 := by omega
    rw [hvpc, hplace, humem _ (by omega) (by omega), hpcByte, pcByte_toNat hpc]
  all_goals rw [hframe]

end Sys2Proof.Machine

/-! O48. A fault of a cycle that neither runs IRET nor takes an interrupt is one raise: every other way the cycle can
end leaves `run` as it was or HALTED. The raise comes after the timer check, but for the range check of `pc`, the one
place that raises `PcOutOfRange` (R92, R174). -/

namespace Sys2Proof.Machine

/-- If `t` is faulted, one raise from `s` led there, and not that of the range check. -/
def FaultedByRaise (s t : State) : Prop :=
  ∀ c, t.run = .faulted c → c ≠ .pcOutOfRange ∧ t = s.raise c

theorem faultedByRaise_raise (s : State) {c : FatalCause} (hc : c ≠ .pcOutOfRange) : FaultedByRaise s (s.raise c) := by
  intro c' h
  cases h
  exact ⟨hc, rfl⟩

/-- From a running state every instruction but IRET faults before it writes anything (R173, R174). -/
theorem exec_faultedByRaise {i : Instr} {s t : State} (hi : i ≠ .iret) (hs : s.run = .running)
    (ht : exec i s = .next t) : FaultedByRaise s t := by
  have running : ∀ u : State, u.run = .running → FaultedByRaise s u := fun u hu c hc => nomatch hu.symm.trans hc
  have badReg := faultedByRaise_raise s (c := .invalidRegisterIndex) nofun
  have stack := faultedByRaise_raise s (c := .stackPointerOutOfRange) nofun
  refine next_satisfies ?_ ht
  cases i with
  | hlt => exact ⟨_, rfl, nofun⟩
  | iret => exact absurd rfl hi
  | ldi a | addi a | not a | prn a | pra a | jmp a =>
    exact ⟨_, rfl, withReg_final _ a s _ badReg fun _ _ => running _ hs⟩
  | add a b | mul a b | and a b | or a b | xor a b | shl a b | shr a b | cmp a b | st a b =>
    exact ⟨_, rfl, withRegs_final _ a b s _ badReg fun _ _ _ _ => running _ hs⟩
  | mod a b =>
    refine ⟨_, rfl, withRegs_final _ a b s _ badReg fun _ _ _ _ => ?_⟩
    split
    · exact faultedByRaise_raise s nofun
    · exact running _ hs
  | jeq a | jne a =>
    refine ⟨_, rfl, withReg_final _ a s _ badReg fun _ _ => ?_⟩
    rw [final_ok]
    split <;> exact running _ hs
  | push a =>
    exact ⟨_, rfl, withReg_final _ a s _ badReg fun _ _ =>
      push_then_final _ _ s (·.advance 2) stack (running _ hs)⟩
  | pop a =>
    exact ⟨_, rfl, withReg_final _ a s _ badReg fun r _ =>
      pop_then_final _ s (fun v u => (u.setReg r v).advance 2) stack fun _ => running _ hs⟩
  | call a =>
    refine ⟨_, rfl, withReg_final _ a s _ badReg fun r _ => ?_⟩
    split
    · exact faultedByRaise_raise s nofun
    · exact push_then_final _ _ s (·.setPc (s.reg r).toNat) stack (running _ hs)
  | ret => exact ⟨_, rfl, pop_then_final _ s (fun v u => u.setPc v.toNat) stack fun _ => running _ hs⟩

/-- At an address of the memory there is an opcode byte, so a rejected fetch has another cause (R97, R98). -/
theorem rejectCause_ne_pcOutOfRange {s : State} {e : DecodeReject} (hpc : s.pc ≤ 255) (h : fetch s = .error e) :
    rejectCause e ≠ .pcOutOfRange := by
  rw [fetch, decode_bytesFrom s.mem hpc] at h
  cases hl : lookupOp defaultAluOpcodeMap (s.mem.get s.pc) with
  | none =>
    rw [decodeWith_unrecognized hl] at h
    cases h
    nofun
  | some o =>
    rcases decodeWith_cases hl (s.mem.bytesFrom (s.pc + 1) 2) with hd | ⟨_, _, -, -, hd⟩ <;> rw [hd] at h
    · cases h
      nofun
    · cases h

/-- Settles O48: the two ways a cycle can write more before it faults are the ones the statement excludes. -/
theorem faultChangesOnlyRun : Obligations.FaultChangesOnlyRun := by
  intro s t c hs ht hfault hiret hnone
  have afterTimer : ∀ u, FaultedByRaise (timerCheck s) u → u.run = .faulted c →
      u = (if c = .pcOutOfRange then s else timerCheck s).raise c := by
    intro u hu h
    obtain ⟨hc, hraise⟩ := hu c h
    rw [if_neg hc, hraise]
  refine step_cases (fun u => u.run = .faulted c → u = (if c = .pcOutOfRange then s else timerCheck s).raise c) s t ht
    ?ended ?pcOut ?service ?rejected ?runs hfault
  case ended => exact fun hn => absurd hs hn
  case pcOut =>
    intro _ _ h
    cases h
    rfl
  case service =>
    intro i _ hpc hi
    cases (hnone hpc).symm.trans hi
  case rejected =>
    exact fun e _ hpc _ he => afterTimer _ (faultedByRaise_raise _ (rejectCause_ne_pcOutOfRange hpc he))
  case runs =>
    intro i _ _ _ hruns he
    have hi : i ≠ .iret := fun e => hiret _ (e ▸ hruns)
    exact afterTimer t (exec_faultedByRaise hi hs he)

end Sys2Proof.Machine

/-! O40. Without a tick the timer check leaves the registers alone, so what an instruction left in register 6 is what
the next cycle's interrupt check reads (R93, R184). -/

namespace Sys2Proof.Machine

theorem timerCheck_reg_of_not_tick {s : State} (h : s.tick = false) (r : Reg) : (timerCheck s).reg r = s.reg r := by
  rw [timerCheck_reg]
  split
  case isTrue hr =>
    rw [timerStatus, h, ← hr]
    rfl
  case isFalse => rfl

/-- A cycle without a tick that finds an enabled bit in register 6 enters the least such interrupt (R94, R178). -/
theorem step_of_enabledStatus {t : State} (hrun : t.run = .running) (hpc : t.pc ≤ 255) (htick : t.tick = false)
    (h : t.reg 5 &&& t.reg 6 ≠ 0#8) :
    ∃ n : Fin 8, (t.reg 5).getLsbD n = true ∧ (t.reg 6).getLsbD n = true ∧
      (∀ j < n, ¬((t.reg 5).getLsbD j = true ∧ (t.reg 6).getLsbD j = true)) ∧
      step t = .next (interruptEntry n (timerCheck t)).final := by
  obtain ⟨hchosen, hnone⟩ := lowestEnabledPendingWins (timerCheck t)
  simp only [timerCheck_reg_of_not_tick htick] at hchosen hnone
  obtain ⟨n, hn⟩ := Option.ne_none_iff_exists'.mp (mt hnone.mp h)
  obtain ⟨henabled, hset, hleast⟩ := (hchosen n).mp hn
  exact ⟨n, henabled, hset, hleast, serviceReplacesFetch t n hrun hpc hn⟩

/-- Settles O40: which instruction left the bit does not matter; LDI R6 leaves its immediate. -/
theorem softwareRaisedInterrupt : Obligations.SoftwareRaisedInterrupt := by
  refine ⟨fun _ _ _ _ hrun hpc htick h => step_of_enabledStatus hrun hpc htick h, ?ldi⟩
  intro s t v ht hrun hpc htick h
  rw [exec_ldi_regByte] at ht
  cases ht
  have hmask : ((s.setReg 6 v).advance 3).reg 5 = s.reg 5 := reg_setReg_advance_other s v 3 (by decide)
  have hstatus : ((s.setReg 6 v).advance 3).reg 6 = v := reg_setReg_advance_same s 6 v 3
  have hservice := step_of_enabledStatus (t := (s.setReg 6 v).advance 3) hrun hpc htick (by rwa [hmask, hstatus])
  rwa [hmask, hstatus] at hservice

end Sys2Proof.Machine

/-! O41, O42. Interrupt entry where the stack has room, beyond what it leaves on the stack: the memory its vector is
read from, and that it changes nothing else (R179 to R182). Where the stack has none, one of its nine pushes raises. -/

namespace Sys2Proof.Machine

theorem vectorAddress_toNat (i : Fin 8) : (vectorAddress i).toNat = 248 + i.val := by
  revert i; decide

/-- The first two pushes write no memory but the two bytes below SP. -/
theorem entryPushed_get_other {s : State} (h : 9 ≤ (s.reg 7).toNat) {k : Nat} (hpc : k ≠ (s.reg 7).toNat - 1)
    (hfl : k ≠ (s.reg 7).toNat - 2) : s.entryPushed.mem.get k = s.mem.get k := by
  obtain ⟨hsp, -, hother, -⟩ := pushed_result (pcByte s.pc) (sp_ne_of_statusCleared h)
  rw [reg_setReg_other _ _ _ _ (by decide)] at hsp hother
  obtain ⟨-, -, hother', -⟩ := pushed_result s.fl (sp_ne_of_pcPushed h)
  rw [hsp] at hother'
  exact (hother' k hfl).trans (hother k hpc)

/-- Settles O41: the vector is read between the pushes of `fl` and of the registers, so it can be one of the first two
bytes pushed, and no other of the nine. -/
theorem interruptEntryFrame : Obligations.InterruptEntryFrame := by
  intro i s hpc h
  obtain ⟨hsp, hpcPushed, hflPushed⟩ := entryPushed_result h
  obtain ⟨u, hpushes, -, -, hmem, hregs, hframe⟩ :=
    pushRegs_ok [0, 1, 2, 3, 4, 5, 6] (by decide) s.entryPushed (hsp ▸ Nat.sub_le_sub_right h 2)
  rw [hsp] at hmem
  have hreg : ∀ r : Reg, r ≠ 7 → u.reg r = (s.setReg 6 0#8).reg r := fun r hr =>
    (hregs r hr).trans (entryPushed_reg_other s hr)
  have hne : ∀ r : Reg, r.val < 6 → r ≠ 7 := fun r hr => Fin.ne_of_val_ne (by omega)
  have hkept : ∀ r : Reg, r.val < 6 → (s.setReg 6 0#8).reg r = s.reg r := fun r hr =>
    reg_setReg_other s 6 r _ (Fin.ne_of_val_ne (by omega))
  have hentry := interruptEntry_eq h i hpushes
  obtain ⟨hspEnd, hslots, hfl, hpcSlot⟩ := interruptEntry_stack h hentry
  refine ⟨_, hentry, ?pcSlot, hfl, fun r hr => ?slots, ?status, fun k hk => ?mem, fun r hr => ?regs, ?reg6, hspEnd,
    ?pc, ?frame⟩
  case pcSlot => rw [hpcSlot, pcByte_toNat hpc]
  case slots => rw [hslots r (hne r hr), hkept r hr]
  case status => exact (hslots 6 (by decide)).trans (reg_setReg_same s 6 _)
  case mem =>
    have houtside : k < (s.reg 7).toNat - 2 - 7 ∨ (s.reg 7).toNat - 2 ≤ k := by omega
    rw [setPc_mem, hmem k houtside]
    exact entryPushed_get_other h (by omega) (by omega)
  case regs => rw [setPc_reg, hreg r (hne r hr), hkept r hr]
  case reg6 => rw [setPc_reg, hreg 6 (by decide), reg_setReg_same]
  case pc =>
    rw [setPc_pc, State.readMem, vectorAddress_toNat]
    split
    case isTrue hvec => rw [hvec, hpcPushed, pcByte_toNat hpc]
    case isFalse hnotPc =>
      split
      case isTrue hvec => rw [hvec, hflPushed]
      case isFalse hnotFl => rw [entryPushed_get_other h hnotPc hnotFl]
  case frame =>
    rw [hframe]
    rfl

/-- A push lowers SP by one or raises (R140). -/
theorem push_sp_cases (v : Byte) (s : State) :
    (∃ t, push v s = .ok () t ∧ (t.reg 7).toNat + 1 = (s.reg 7).toNat) ∨
      push v s = .raised (s.raise .stackPointerOutOfRange) := by
  rcases push_cases v s with ⟨h, e⟩ | ⟨-, e⟩
  · refine .inl ⟨_, e, ?_⟩
    rw [writeMem_reg, reg_setReg_same]
    bv_omega
  · exact .inr e

/-- With SP below 9 one of the nine pushes finds SP at 0 and raises (R140, R179). -/
theorem interruptEntry_fault (i : Fin 8) {s : State} (h : (s.reg 7).toNat < 9) :
    ∃ t, interruptEntry i s = .raised t ∧ t.run = .faulted .stackPointerOutOfRange := by
  rcases push_sp_cases (pcByte s.pc) (s.setReg 6 0#8) with ⟨s1, e1, h1⟩ | e1
  · rw [reg_setReg_other _ _ _ _ (by decide)] at h1
    rcases push_sp_cases s1.fl s1 with ⟨s2, e2, h2⟩ | e2
    · rw [interruptEntry, e1, andThen_ok, e2, andThen_ok]
      rcases pushRegs_cases [0, 1, 2, 3, 4, 5, 6] s2 with
        ⟨s3, -, (h3 : (s3.reg 7).toNat + 7 = (s2.reg 7).toNat)⟩ | ⟨-, t, e3, hrun⟩
      · omega
      · exact ⟨t, by rw [e3, andThen_raised], hrun⟩
    · exact ⟨_, by rw [interruptEntry, e1, andThen_ok, e2, andThen_raised], rfl⟩
  · exact ⟨_, by rw [interruptEntry, e1, andThen_raised], rfl⟩

/-- Settles O42: no push and no raise writes an output. -/
theorem interruptEntryStackFault : Obligations.InterruptEntryStackFault := by
  intro i s h
  obtain ⟨t, ht, hrun⟩ := interruptEntry_fault i h
  have hkept : (interruptEntry i s).final.hint = s.hint ∧ (interruptEntry i s).final.prn = s.prn :=
    interruptEntry_keeps (fun u => u.hint = s.hint ∧ u.prn = s.prn) (fun _ _ h => h) (fun _ _ _ h => h)
      (fun _ _ _ h => h) (fun _ _ h => h) i s ⟨rfl, rfl⟩
  rw [ht] at hkept
  exact ⟨t, ht, hrun, hkept⟩

end Sys2Proof.Machine

/-! O52. A load writes the image over the empty memory of the reset state: inside the image an address reads the
image's byte, beyond it the reset state's 0 (R201). -/

namespace Sys2Proof.Machine

/-- Memory at the load base, written over the memory after reset, reads as the image continued by 0. -/
theorem get_setBytes_reset (image : List Byte) (k : Nat) :
    (State.reset.mem.setBytes loadBase image).get k = image.getD k 0#8 := by
  rw [get_setBytes]
  split
  case isTrue => rfl
  case isFalse hbeyond =>
    have hlen : image.length ≤ k := by
      simp only [loadBase] at hbeyond
      omega
    rw [List.getD_eq_getElem?_getD, List.getElem?_eq_none hlen, Option.getD_none]
    exact get_unlisted [] k nofun

/-- Loading an image that fits keeps the invariant of the reset state. -/
theorem reset_setBytes_inv {image : List Byte} (h : image.length ≤ memSize) :
    { State.reset with mem := State.reset.mem.setBytes loadBase image }.Inv := by
  obtain ⟨hwf, hpc⟩ : State.reset.Inv := resetMeetsInvariant
  exact ⟨setBytes_wf image _ loadBase (by rwa [loadBase, Nat.zero_add]) hwf, hpc⟩

/-- Settles O52: the load of an image that fits writes its bytes and nothing else. -/
theorem loadPlacesImage : Obligations.LoadPlacesImage := by
  refine fun image => ⟨fun hfits => ?_, fun hlong => ?_⟩
  · exact ⟨_, if_pos hfits, get_setBytes_reset image, reset_setBytes_inv hfits, rfl⟩
  · exact if_neg (Nat.not_le.mpr hlong)

end Sys2Proof.Machine
